-- ==== Sys2Proof/Word.lean ====
section
/-! DEFINITION. The words of intcodec CORE: command, response, value, character (00_scope.md R8, R9, R17). -/

namespace Sys2Proof

/-- One character: a byte value 0..255 (00_scope.md R8, R17). -/
abbrev Byte := BitVec 8

/-- A 64-bit value: an operand, an accumulator, the data of a response (00_scope.md R8, 10_state.md R23). -/
abbrev Value := BitVec 64

/-- A command word, `op = cmd[71:64]`, `x = cmd[63:0]` (00_scope.md R9, 30_encoding.md R70). -/
abbrev CmdWord := BitVec 72

/-- A response word, `status = rsp[67:64]`, `data = rsp[63:0]` (00_scope.md R9, 30_encoding.md R75). -/
abbrev RspWord := BitVec 68

end Sys2Proof
end

