-- ==== Sys2Proof/Syntax.lean ====
section
/-! DEFINITION. The fourteen commands of intcodec CORE (30_encoding.md R76), their formats (R71 to R73) and the
names of the statuses (00_scope.md R18, 60_exceptions.md R200). -/

namespace Sys2Proof

/-- The commands, one constructor for each row of spec/opcode_table.json. Every value of an operand's type is a
legal operand (30_encoding.md R72, R73). -/
inductive Instr where
  /-- ABEGIN: open a streamed construction (40_alphabet.md R102). -/
  | abegin
  /-- APUSH c: offer the next character of the alphabet (R104). -/
  | apush (c : Byte)
  /-- ACOMMIT: check the offered alphabet and make it the codec (R106). -/
  | acommit
  /-- LDLOWER n: load the lower-case preset of base n (R110). -/
  | ldlower (n : Value)
  /-- LDUPPER n: load the upper-case preset of base n (R112). -/
  | ldupper (n : Value)
  /-- LDB64: load the base-64 preset (R114). -/
  | ldb64
  /-- BASE: query the radix (R116). -/
  | base
  /-- ENCU n: encode an unsigned value (41_encode.md R122). -/
  | encu (n : Value)
  /-- ENCS n: encode a two's-complement signed value (R124). -/
  | encs (n : Value)
  /-- OPOP: take the next character of the encoded string (R128). -/
  | opop
  /-- DBEGU: open an unsigned decode session (42_decode.md R142). -/
  | dbegu
  /-- DBEGS: open a signed decode session (R144). -/
  | dbegs
  /-- DCHAR c: give the session its next character (R146). -/
  | dchar (c : Byte)
  /-- DEND: close the session and deliver its result (R148). -/
  | dend
deriving DecidableEq, Repr

/-- The three command formats (30_encoding.md R71, R72, R73). -/
inductive Format where
  /-- No operand, `cmd[63:0]` must be 0. -/
  | z
  /-- A character in `cmd[7:0]`, `cmd[63:8]` must be 0. -/
  | c
  /-- A 64-bit value in `cmd[63:0]`. -/
  | v
deriving DecidableEq, Repr

/-- The ten statuses a response can report (60_exceptions.md R200); their numbers are `Machine.statusCode`. -/
inductive Status where
  | ok
  | invalidAlphabetSize
  | duplicateCharacter
  | emptyInput
  | invalidCharacter
  | overflow
  | noCodec
  | badSequence
  | illegalCommand
  | outputEmpty
deriving DecidableEq, Repr

end Sys2Proof
end

