-- ==== Sys2Proof/Decode.lean ====
section
/-! DEFINITION. The fields of a command word, the total decoder, the encoder and the opcode map
(30_encoding.md R70 to R78). -/

namespace Sys2Proof

/-! ## Fields of a command word -/

/-- `op = cmd[71:64]` (30_encoding.md R70). -/
def opField (w : CmdWord) : BitVec 8 := w.extractLsb' 64 8

/-- `x = n = cmd[63:0]` (30_encoding.md R70, R73). -/
def valueField (w : CmdWord) : Value := w.extractLsb' 0 64

/-- `c = cmd[7:0]` (30_encoding.md R72). -/
def charField (w : CmdWord) : Byte := w.extractLsb' 0 8

/-- `cmd[63:8]`, which format C requires to be 0 (30_encoding.md R72). -/
def charZeroField (w : CmdWord) : BitVec 56 := w.extractLsb' 8 56

/-! ## Decoding -/

/-- Why a word is illegal (30_encoding.md R78). -/
inductive IllegalWord where
  /-- The opcode is none of 0x10..0x16, 0x20..0x22, 0x30..0x33. -/
  | unassignedOpcode (op : BitVec 8)
  /-- The opcode is of format Z and `cmd[63:0]` is not 0. -/
  | operandNotZero (op : BitVec 8)
  /-- The opcode is of format C and `cmd[63:8]` is not 0. -/
  | characterTooWide (op : BitVec 8)
deriving DecidableEq, Repr

/-- A word of format Z (30_encoding.md R71). -/
def decodeZ (w : CmdWord) (i : Instr) : Except IllegalWord Instr :=
  if valueField w = 0 then .ok i else .error (.operandNotZero (opField w))

/-- A word of format C (30_encoding.md R72). -/
def decodeC (w : CmdWord) (i : Byte → Instr) : Except IllegalWord Instr :=
  if charZeroField w = 0 then .ok (i (charField w)) else .error (.characterTooWide (opField w))

/-- A word of format V: every operand is legal (30_encoding.md R73). -/
def decodeV (w : CmdWord) (i : Value → Instr) : Except IllegalWord Instr :=
  .ok (i (valueField w))

/-- The decoder (30_encoding.md R76, R77, R78): total, and reading nothing but the word. -/
def decode (w : CmdWord) : Except IllegalWord Instr :=
  if opField w = 0x10#8 then decodeZ w .abegin
  else if opField w = 0x11#8 then decodeC w .apush
  else if opField w = 0x12#8 then decodeZ w .acommit
  else if opField w = 0x13#8 then decodeV w .ldlower
  else if opField w = 0x14#8 then decodeV w .ldupper
  else if opField w = 0x15#8 then decodeZ w .ldb64
  else if opField w = 0x16#8 then decodeZ w .base
  else if opField w = 0x20#8 then decodeV w .encu
  else if opField w = 0x21#8 then decodeV w .encs
  else if opField w = 0x22#8 then decodeZ w .opop
  else if opField w = 0x30#8 then decodeZ w .dbegu
  else if opField w = 0x31#8 then decodeZ w .dbegs
  else if opField w = 0x32#8 then decodeC w .dchar
  else if opField w = 0x33#8 then decodeZ w .dend
  else .error (.unassignedOpcode (opField w))

/-- A command word read from a number of `nbits` bits whose bit 0 is the word's bit 0; the bits above `nbits` are 0
(log 7). -/
def wordOfNat (nbits w : Nat) : CmdWord := BitVec.ofNat 72 (w % 2 ^ nbits)

/-- What the decoder reads from an opcode-table word, `none` where it refuses (log 7). -/
def decodeTableWord (nbits w : Nat) : Option Instr :=
  match decode (wordOfNat nbits w) with
  | .ok i => some i
  | .error _ => none

/-! ## Encoding -/

/-- The opcode of a command (30_encoding.md R76). -/
def Instr.opcode : Instr → BitVec 8
  | .abegin => 0x10#8
  | .apush _ => 0x11#8
  | .acommit => 0x12#8
  | .ldlower _ => 0x13#8
  | .ldupper _ => 0x14#8
  | .ldb64 => 0x15#8
  | .base => 0x16#8
  | .encu _ => 0x20#8
  | .encs _ => 0x21#8
  | .opop => 0x22#8
  | .dbegu => 0x30#8
  | .dbegs => 0x31#8
  | .dchar _ => 0x32#8
  | .dend => 0x33#8

/-- The operand field `cmd[63:0]` of a command (30_encoding.md R71, R72, R73). -/
def Instr.operand : Instr → Value
  | .abegin => 0
  | .apush c => c.setWidth 64
  | .acommit => 0
  | .ldlower n => n
  | .ldupper n => n
  | .ldb64 => 0
  | .base => 0
  | .encu n => n
  | .encs n => n
  | .opop => 0
  | .dbegu => 0
  | .dbegs => 0
  | .dchar c => c.setWidth 64
  | .dend => 0

/-- The word of a command: the opcode above the operand (30_encoding.md R70). -/
def encode (i : Instr) : CmdWord := i.opcode ++ i.operand

/-! ## The opcode map as masks and matches -/

/-- The mnemonic of a command (30_encoding.md R76). -/
def Instr.mnemonic : Instr → String
  | .abegin => "ABEGIN"
  | .apush _ => "APUSH"
  | .acommit => "ACOMMIT"
  | .ldlower _ => "LDLOWER"
  | .ldupper _ => "LDUPPER"
  | .ldb64 => "LDB64"
  | .base => "BASE"
  | .encu _ => "ENCU"
  | .encs _ => "ENCS"
  | .opop => "OPOP"
  | .dbegu => "DBEGU"
  | .dbegs => "DBEGS"
  | .dchar _ => "DCHAR"
  | .dend => "DEND"

/-- One row of the opcode map (30_encoding.md R76). -/
structure OpcodeRow where
  mnemonic : String
  format : Format
  pattern : CmdWord
  mask : CmdWord
deriving DecidableEq, Repr

/-- The opcode map, row by row (30_encoding.md R76): a word is the command of a row exactly when
`w AND mask = match`. -/
def opcodeMap : List OpcodeRow :=
  [⟨"ABEGIN", .z, 0x100000000000000000#72, 0xFFFFFFFFFFFFFFFFFF#72⟩,
   ⟨"APUSH", .c, 0x110000000000000000#72, 0xFFFFFFFFFFFFFFFF00#72⟩,
   ⟨"ACOMMIT", .z, 0x120000000000000000#72, 0xFFFFFFFFFFFFFFFFFF#72⟩,
   ⟨"LDLOWER", .v, 0x130000000000000000#72, 0xFF0000000000000000#72⟩,
   ⟨"LDUPPER", .v, 0x140000000000000000#72, 0xFF0000000000000000#72⟩,
   ⟨"LDB64", .z, 0x150000000000000000#72, 0xFFFFFFFFFFFFFFFFFF#72⟩,
   ⟨"BASE", .z, 0x160000000000000000#72, 0xFFFFFFFFFFFFFFFFFF#72⟩,
   ⟨"ENCU", .v, 0x200000000000000000#72, 0xFF0000000000000000#72⟩,
   ⟨"ENCS", .v, 0x210000000000000000#72, 0xFF0000000000000000#72⟩,
   ⟨"OPOP", .z, 0x220000000000000000#72, 0xFFFFFFFFFFFFFFFFFF#72⟩,
   ⟨"DBEGU", .z, 0x300000000000000000#72, 0xFFFFFFFFFFFFFFFFFF#72⟩,
   ⟨"DBEGS", .z, 0x310000000000000000#72, 0xFFFFFFFFFFFFFFFFFF#72⟩,
   ⟨"DCHAR", .c, 0x320000000000000000#72, 0xFFFFFFFFFFFFFFFF00#72⟩,
   ⟨"DEND", .z, 0x330000000000000000#72, 0xFFFFFFFFFFFFFFFFFF#72⟩]

end Sys2Proof
end

