-- ==== Sys2Proof/Config.lean ====
section
/-! DEFINITION. The parameters the spec fixes (00_scope.md R8, R9). The one parameter it leaves open, LATENCY (R10),
is no argument of any rule and has no place here (log 8). No free value is needed: the only unspecified values, the
contents of the memories after reset, are absent entries (log 2). -/

namespace Sys2Proof.Config

/-- Number of entries of ALPHA and of RLUT (00_scope.md R9, 10_state.md R34, R35). -/
abbrev tableDepth : Nat := 256

/-- Number of entries of OBUF, the parameter OCAP (00_scope.md R9, 10_state.md R36). -/
abbrev outDepth : Nat := 65

/-- RADIX_MIN (00_scope.md R8). -/
abbrev radixMin : Nat := 2

/-- RADIX_MAX (00_scope.md R8). -/
abbrev radixMax : Nat := 256

/-- The largest radix of the two alphanumeric presets (00_scope.md R8). -/
abbrev presetMax : Nat := 36

/-- The value at which ACNT saturates (00_scope.md R9, 10_state.md R29). -/
abbrev countMax : Nat := 257

end Sys2Proof.Config
end

