-- ==== Sys2Proof/Machine/State.lean ====
section
/-! DEFINITION. The state of intcodec CORE (10_state.md R20), its reset value (R47), and the reasons a step can stop. -/

namespace Sys2Proof.Machine

/-- An internal memory of entries `w` bits wide: the pairs (index, entry) of the entries that hold a value, indices
strictly rising. An index that is not listed holds NO value (log 2). `Memory 8` is a list of `Host.Cell`. -/
abbrev Memory (w : Nat) := List (Nat × BitVec w)

/-- The names of the memories (20_memory.md R50; RLUT in its two fields, log 3). -/
inductive MemName where
  | alpha
  | rlutV
  | rlutD
  | obuf
deriving DecidableEq, Repr

/-- What the host can do (00_scope.md R19): present a command word, assert reset, or assert reset while the command
it presented is executing (70_reset_and_hazards.md R230, R232; log 6). -/
inductive HostAction where
  /-- Present a command word. -/
  | command (w : CmdWord)
  /-- Assert reset between commands. -/
  | reset
  /-- Present a command word and assert reset before its response. -/
  | commandCut (w : CmdWord)
deriving DecidableEq, Repr

/-- Why a step stops with a fault. No spec rule stops the block; each reason is raised only in a state that breaks the
invariants of 10_state.md R44, R45 (where 93_implementation_defined.md U9, U10 give no behaviour) or has an entry that
no rule wrote (U1). No state reached from reset is one. -/
inductive Fault where
  /-- Raised by a read of a memory entry that nothing has written since reset. Safe: the spec gives the entry no value
  (10_state.md R47, R48; log 2). -/
  | unwrittenEntry (m : MemName) (index : Nat)
  /-- Raised by a read at an index the memory does not have. Safe: 20_memory.md R58 says it cannot occur (log 4). -/
  | indexOutOfRange (m : MemName) (index : Nat)
  /-- Raised by ENCU and ENCS when VALID = 1 and RADIX is outside 2..256. Safe: the precondition of 41_encode.md R120
  fails and the spec gives no behaviour (log 4). -/
  | radixOutOfRange (radix : Nat)
  /-- Raised by ENCU and ENCS when a 66th output character would be needed. Safe: 41_encode.md R126 says it cannot
  occur (log 4). -/
  | outputFull
deriving DecidableEq, Repr

/-- Why a step is refused. -/
inductive Refusal where
  /-- Raised by an arm of `exec` for an instruction the model gives no meaning yet. Safe: nothing is claimed. No arm
  raises it: every command has its meaning. -/
  | notModelled (mnemonic : String)
deriving DecidableEq, Repr

/-- The complete state of the block (10_state.md R20) and the two channels of its interface (20_memory.md R67). -/
structure State where
  /-- VALID (R26): a consistent codec is loaded. -/
  valid : Bool
  /-- RADIX (R27): the radix, 0 when VALID = 0. -/
  radix : BitVec 9
  /-- BUILD (R28): a streamed construction is open. -/
  build : Bool
  /-- ACNT (R29): characters pushed so far, saturating at 257. -/
  acnt : BitVec 9
  /-- ADUP (R25): a repeated character was pushed. -/
  adup : Bool
  /-- ALPHA[0..255] (R34): digit value to character. -/
  alpha : Memory 8
  /-- The `v` fields of RLUT[0..255] (R35): the character is in the alphabet (log 3). -/
  rlutV : Memory 1
  /-- The `d` fields of RLUT[0..255] (R35): the character's digit value (log 3). -/
  rlutD : Memory 8
  /-- OBUF[0..64] (R36): output characters, filled from the end. -/
  obuf : Memory 8
  /-- OPOS (R30): index of the first unread output character, 65 when there is none. -/
  opos : BitVec 7
  /-- DACT (R31): a decode session is open. -/
  dact : Bool
  /-- DSGN (R32): the session is a signed decode. -/
  dsgn : Bool
  /-- DFIRST (R25, R33): no character of the session has been taken yet. -/
  dfirst : Bool
  /-- DNEG (R25, R33): a leading sign character was taken. -/
  dneg : Bool
  /-- DANY (R25, R33): at least one character other than the sign was taken. -/
  dany : Bool
  /-- DACC (R21): the accumulator. -/
  dacc : Value
  /-- DERR (R25, R33): the first error of the session, 0 when there is none. -/
  derr : BitVec 4
  /-- The MODEL's field: the host's actions not yet taken, the next one first (20_memory.md R60, R67; log 1). -/
  cmdIn : List HostAction
  /-- The MODEL's field: the response words delivered, oldest first (20_memory.md R61, R67; log 1). -/
  rspOut : List RspWord
deriving DecidableEq, Repr

/-- The machine right after reset (10_state.md R47, 70_reset_and_hazards.md R230): the stated value in every register,
nothing listed in the memories (log 2), nothing on the channels (log 1). -/
def State.reset : State where
  valid := false
  radix := 0
  build := false
  acnt := 0
  adup := false
  alpha := []
  rlutV := []
  rlutD := []
  obuf := []
  opos := 65
  dact := false
  dsgn := false
  dfirst := false
  dneg := false
  dany := false
  dacc := 0
  derr := 0
  cmdIn := []
  rspOut := []

end Sys2Proof.Machine
end

