-- ==== Sys2Proof/Machine/Operands.lean ====
section
/-! DEFINITION. How operands and memory entries are read as numbers (00_scope.md R12, 30_encoding.md R74), the status
numbers (60_exceptions.md R200), the sign character and the three constant tables (10_state.md R37). -/

namespace Sys2Proof.Machine

/-- The status numbers (60_exceptions.md R200). -/
def statusCode : Status → BitVec 4
  | .ok => 0
  | .invalidAlphabetSize => 1
  | .duplicateCharacter => 2
  | .emptyInput => 3
  | .invalidCharacter => 4
  | .overflow => 5
  | .noCodec => 6
  | .badSequence => 7
  | .illegalCommand => 8
  | .outputEmpty => 9

/-- A response word, `status[3:0] ++ data[63:0]` (00_scope.md R14, 30_encoding.md R75). -/
def rspWord (status : BitVec 4) (data : Value) : RspWord := status ++ data

/-- The status field `rsp[67:64]` (30_encoding.md R75). -/
def rspStatus (r : RspWord) : BitVec 4 := r.extractLsb' 64 4

/-- The data field `rsp[63:0]` (30_encoding.md R75). -/
def rspData (r : RspWord) : Value := r.extractLsb' 0 64

/-- `s64(p)`, the signed reading of a 64-bit pattern (00_scope.md R12). -/
def s64 (p : Value) : Int := if p.toNat < 2 ^ 63 then (p.toNat : Int) else (p.toNat : Int) - 2 ^ 64

/-- `neg64(p) = (2^64 - p) mod 2^64` (00_scope.md R12). -/
def neg64 (p : Value) : Value := BitVec.ofNat 64 ((2 ^ 64 - p.toNat) % 2 ^ 64)

/-- The sign ENCS takes from its operand: `n[63]` (41_encode.md R124). -/
def isNegative (n : Value) : Bool := n.getLsbD 63

/-- The magnitude ENCS encodes (41_encode.md R124). -/
def magnitude (n : Value) : Value := if isNegative n then neg64 n else n

/-- The sign character '-', 0x2D (00_scope.md R9). -/
def signChar : Byte := 0x2D

/-- `LOWER_REF` (10_state.md R37): '0'..'9' then 'a'..'z'. -/
def lowerRef : List Byte :=
  (List.range 10).map (fun i => BitVec.ofNat 8 (0x30 + i)) ++
  (List.range 26).map (fun i => BitVec.ofNat 8 (0x61 + i))

/-- `UPPER_REF` (10_state.md R37): '0'..'9' then 'A'..'Z'. -/
def upperRef : List Byte :=
  (List.range 10).map (fun i => BitVec.ofNat 8 (0x30 + i)) ++
  (List.range 26).map (fun i => BitVec.ofNat 8 (0x41 + i))

/-- `B64_REF` (10_state.md R37): 'A'..'Z', 'a'..'z', '0'..'9', '+', '/'. -/
def b64Ref : List Byte :=
  (List.range 26).map (fun i => BitVec.ofNat 8 (0x41 + i)) ++
  (List.range 26).map (fun i => BitVec.ofNat 8 (0x61 + i)) ++
  (List.range 10).map (fun i => BitVec.ofNat 8 (0x30 + i)) ++
  [0x2B, 0x2F]

end Sys2Proof.Machine
end

