-- ==== Sys2Proof/Machine/Flags.lean ====
section
/-! DEFINITION. Every test and flag value the commands compute (10_state.md R25, 40_alphabet.md R104 to R110,
42_decode.md R146 to R152). -/

namespace Sys2Proof.Machine

/-- `min(ACNT + 1, 257)` (40_alphabet.md R104). -/
def countNext (acnt : BitVec 9) : BitVec 9 := BitVec.ofNat 9 (min (acnt.toNat + 1) Config.countMax)

/-- The size test of ACOMMIT: `ACNT < 2 or ACNT > 256` (40_alphabet.md R106). -/
def sizeIllegal (acnt : BitVec 9) : Bool :=
  decide (acnt.toNat < Config.radixMin) || decide (Config.radixMax < acnt.toNat)

/-- The operand test of LDLOWER and LDUPPER: `n < 2 or n > 36`, on all 64 bits (40_alphabet.md R110). -/
def presetIllegal (n : Value) : Bool :=
  decide (n.toNat < Config.radixMin) || decide (Config.presetMax < n.toNat)

/-- The exact sum of the multiply-add, `t = DACC * RADIX + d` (42_decode.md R150, R160). -/
def mulAdd (dacc : Value) (radix : BitVec 9) (d : Byte) : Nat := dacc.toNat * radix.toNat + d.toNat

/-- The unsigned overflow test, `t >= 2^64` (42_decode.md R150). -/
def unsignedOverflow (t : Nat) : Bool := decide (2 ^ 64 ≤ t)

/-- The output `ovf` of the overflow_detector (42_decode.md R152). -/
def signedOverflow (u : Value) (dneg : Bool) : Bool :=
  u.getLsbD 63 && !(dneg && u == 0x8000000000000000#64)

/-- Whether DCHAR takes its character as the sign (42_decode.md R146). -/
def takesSign (dsgn dfirst : Bool) (c : Byte) : Bool := dsgn && dfirst && c == signChar

end Sys2Proof.Machine
end

