-- ==== Sys2Proof/Machine/Ops.lean ====
section
/-! DEFINITION. The named operations over the memories and registers that the commands share: entry access, the
response, the error response (what stands for taking an exception), `clear_codec`, `load_preset`, `emit_digits`, a new
session, and the fetch of a host action. -/

namespace Sys2Proof.Machine

/-! ## Entries of a memory -/

/-- The value an entry holds, `none` where nothing has written it (00_scope.md R13 `MemRead`; log 2). -/
def Memory.read {w : Nat} : Memory w → Nat → Option (BitVec w)
  | [], _ => none
  | (b, v) :: m, a => if b = a then some v else Memory.read m a

/-- Replace one entry, keeping the indices rising (00_scope.md R13 `MemWrite`). -/
def Memory.write {w : Nat} : Memory w → Nat → BitVec w → Memory w
  | [], a, v => [(a, v)]
  | (b, u) :: m, a, v =>
    if b < a then (b, u) :: Memory.write m a v
    else if b = a then (a, v) :: m
    else (a, v) :: (b, u) :: m

/-- The memory whose entries 0..n-1 all hold `v`. -/
def Memory.fill {w : Nat} (n : Nat) (v : BitVec w) : Memory w := (List.range n).map fun a => (a, v)

/-- The indices rise strictly from `lo` on and stay below `depth`. -/
def Memory.wfFrom {w : Nat} (depth : Nat) : Nat → Memory w → Bool
  | _, [] => true
  | lo, (a, _) :: m => decide (lo ≤ a) && decide (a < depth) && Memory.wfFrom depth (a + 1) m

/-- The canonical form of a memory of `depth` entries. -/
def Memory.wf {w : Nat} (depth : Nat) (m : Memory w) : Bool := Memory.wfFrom depth 0 m

/-- A command's read of entry `i` of a memory of `depth` entries (20_memory.md R53, R58; log 2, log 4). -/
def readEntry {w : Nat} (name : MemName) (depth : Nat) (m : Memory w) (i : Nat) : Except Fault (BitVec w) :=
  if i < depth then
    match m.read i with
    | some v => .ok v
    | none => .error (.unwrittenEntry name i)
  else .error (.indexOutOfRange name i)

/-! ## Responses -/

/-- `respond(status, data)` (00_scope.md R14): one word on the response channel (20_memory.md R61). -/
def respond (status : BitVec 4) (data : Value) (s : State) : State :=
  { s with rspOut := s.rspOut ++ [rspWord status data] }

/-- `respond(OK, data)`. -/
def respondOk (data : Value) (s : State) : State := respond (statusCode .ok) data s

/-- `raise E`, which is `respond(E, 0)` (00_scope.md R14): all that taking an error is in this block
(60_exceptions.md R214); nothing is entered, so there is no return (R216). -/
def raise (e : Status) (s : State) : State := respond (statusCode e) 0 s

/-- A computation that may stop, as the outcome of a command. -/
def outcomeOf (r : Except Fault State) : Host.Outcome State Fault Refusal :=
  match r with
  | .ok s => .next s
  | .error f => .fault f

/-- An illegal word: IllegalCommand and no state change (30_encoding.md R78, 60_exceptions.md R208). -/
def execIllegal (s : State) : Host.Outcome State Fault Refusal := .next (raise .illegalCommand s)

/-! ## The codec -/

/-- `clear_codec()` (40_alphabet.md R101). -/
def clearCodec (s : State) : State :=
  { s with
    valid := false
    radix := 0
    build := false
    acnt := 0
    adup := false
    rlutV := Memory.fill Config.tableDepth 0
    dact := false }

/-- `ALPHA[i] <- c; RLUT[c] <- (v = 1, d = i)` (40_alphabet.md R104, R108). -/
def setDigit (c : Byte) (i : Nat) (s : State) : State :=
  { s with
    alpha := s.alpha.write i c
    rlutV := s.rlutV.write c.toNat 1
    rlutD := s.rlutD.write c.toNat (BitVec.ofNat 8 i) }

/-- The loop of `load_preset`, from digit `i` on (40_alphabet.md R108). -/
def setDigits : List Byte → Nat → State → State
  | [], _, s => s
  | c :: cs, i, s => setDigits cs (i + 1) (setDigit c i s)

/-- `load_preset(REF, n)` (40_alphabet.md R108). -/
def loadPreset (ref : List Byte) (n : Nat) (s : State) : State :=
  { setDigits (ref.take n) 0 s with radix := BitVec.ofNat 9 n, valid := true }

/-- The whole of LDLOWER and LDUPPER but for the reference table (40_alphabet.md R110, R112). -/
def presetOrRaise (ref : List Byte) (n : Value) (s : State) : State :=
  if presetIllegal n then raise .invalidAlphabetSize (clearCodec s)
  else respondOk 0 (loadPreset ref n.toNat (clearCodec s))

/-! ## The output buffer -/

/-- `OPOS <- OPOS - 1; OBUF[OPOS] <- c` (20_memory.md R57, 41_encode.md R120). -/
def pushOut (c : Byte) (s : State) : Except Fault State :=
  if s.opos = 0 then .error .outputFull
  else .ok { s with opos := s.opos - 1, obuf := s.obuf.write (s.opos - 1).toNat c }

/-- The loop of `emit_digits` (41_encode.md R120): the body runs, then the test on the quotient. `fuel` bounds the
characters by the buffer's 65 entries, which R126 says suffice. -/
def emitLoop : Nat → Nat → State → Except Fault State
  | 0, _, _ => .error .outputFull
  | fuel + 1, en, s =>
    match readEntry .alpha Config.tableDepth s.alpha (en % s.radix.toNat) with
    | .error f => .error f
    | .ok c =>
      match pushOut c s with
      | .error f => .error f
      | .ok s' => if en / s.radix.toNat = 0 then .ok s' else emitLoop fuel (en / s.radix.toNat) s'

/-- `emit_digits(v)` (41_encode.md R120), with its precondition `2 <= RADIX <= 256` (log 4). -/
def emitDigits (v : Value) (s : State) : Except Fault State :=
  if Config.radixMin ≤ s.radix.toNat ∧ s.radix.toNat ≤ Config.radixMax then
    emitLoop Config.outDepth v.toNat { s with opos := 65 }
  else .error (.radixOutOfRange s.radix.toNat)

/-- `65 - OPOS`, the length of the string held (10_state.md R30). -/
def outLength (s : State) : Nat := Config.outDepth - s.opos.toNat

/-- `respond(OK, 65 - OPOS)` (41_encode.md R122, R124). -/
def respondLength (s : State) : State := respondOk (BitVec.ofNat 64 (outLength s)) s

/-! ## The decode session -/

/-- The registers DBEGU and DBEGS write (42_decode.md R142, R144). -/
def openSession (signed : Bool) (s : State) : State :=
  { s with
    dact := true
    dsgn := signed
    dfirst := true
    dneg := false
    dany := false
    dacc := 0
    derr := 0 }

/-- Latch the session's first error and respond with it (42_decode.md R146, R154). -/
def latchError (e : Status) (s : State) : State := raise e { s with derr := statusCode e }

/-! ## The command channel -/

/-- Put a command word in front of the host's actions. -/
def presentWord (w : CmdWord) (s : State) : State := { s with cmdIn := .command w :: s.cmdIn }

/-- Take the host's next action from the command channel (20_memory.md R60). -/
def fetch (s : State) : Option (HostAction × State) :=
  match s.cmdIn with
  | [] => none
  | a :: rest => some (a, { s with cmdIn := rest })

/-- Reset: the block goes to the reset state whatever its state was (70_reset_and_hazards.md R230). The host's later
actions and the responses it already has are the host's and stay (log 6). -/
def resetBlock (s : State) : State := { State.reset with cmdIn := s.cmdIn, rspOut := s.rspOut }

end Sys2Proof.Machine
end

