-- ==== Sys2Proof/Machine/Alphabet.lean ====
section
/-! DEFINITION. The commands of alphabet_rom (40_alphabet.md). -/

namespace Sys2Proof.Machine

/-- ABEGIN (40_alphabet.md R102). -/
def execAbegin (s : State) : Host.Outcome State Fault Refusal :=
  .next (respondOk 0 { clearCodec s with build := true })

/-- The table part of APUSH: what it does with its character before the count (40_alphabet.md R104). -/
def pushChar (c : Byte) (s : State) : Except Fault State :=
  if s.acnt.toNat ≤ 255 then
    match readEntry .rlutV Config.tableDepth s.rlutV c.toNat with
    | .error f => .error f
    | .ok v => if v = 1 then .ok { s with adup := true } else .ok (setDigit c s.acnt.toNat s)
  else .ok s

/-- APUSH (40_alphabet.md R104). -/
def execApush (c : Byte) (s : State) : Host.Outcome State Fault Refusal :=
  if s.build then
    outcomeOf ((pushChar c s).map fun s' => respondOk 0 { s' with acnt := countNext s'.acnt })
  else .next (raise .badSequence s)

/-- ACOMMIT (40_alphabet.md R106). -/
def execAcommit (s : State) : Host.Outcome State Fault Refusal :=
  if s.build then
    if sizeIllegal s.acnt then .next (raise .invalidAlphabetSize { s with build := false })
    else if s.adup then .next (raise .duplicateCharacter { s with build := false })
    else .next (respondOk 0 { s with build := false, radix := s.acnt, valid := true })
  else .next (raise .badSequence s)

/-- LDLOWER (40_alphabet.md R110). -/
def execLdlower (n : Value) (s : State) : Host.Outcome State Fault Refusal := .next (presetOrRaise lowerRef n s)

/-- LDUPPER (40_alphabet.md R112). -/
def execLdupper (n : Value) (s : State) : Host.Outcome State Fault Refusal := .next (presetOrRaise upperRef n s)

/-- LDB64 (40_alphabet.md R114). -/
def execLdb64 (s : State) : Host.Outcome State Fault Refusal :=
  .next (respondOk 0 (loadPreset b64Ref 64 (clearCodec s)))

/-- BASE (40_alphabet.md R116). -/
def execBase (s : State) : Host.Outcome State Fault Refusal :=
  if s.valid then .next (respondOk (s.radix.setWidth 64) s) else .next (raise .noCodec s)

end Sys2Proof.Machine
end

