-- ==== Sys2Proof/Machine/Decoder.lean ====
section
/-! DEFINITION. The commands of radix_decoder and overflow_detector (42_decode.md). -/

namespace Sys2Proof.Machine

/-- DBEGU (42_decode.md R142). -/
def execDbegu (s : State) : Host.Outcome State Fault Refusal :=
  if s.valid then .next (respondOk 0 (openSession false s)) else .next (raise .noCodec s)

/-- DBEGS (42_decode.md R144). -/
def execDbegs (s : State) : Host.Outcome State Fault Refusal :=
  if s.valid then .next (respondOk 0 (openSession true s)) else .next (raise .noCodec s)

/-- The accumulation of one digit: the multiply-add and its overflow test (42_decode.md R146, R150). -/
def accumulate (d : Byte) (s : State) : State :=
  if unsignedOverflow (mulAdd s.dacc s.radix d) then latchError .overflow s
  else respondOk 0 { s with dacc := BitVec.ofNat 64 (mulAdd s.dacc s.radix d) }

/-- A character that is not the sign: the lookup, then the accumulation (42_decode.md R146). The digit of an entry is
read only where its valid bit is 1 (10_state.md R48). -/
def takeDigit (c : Byte) (s : State) : Except Fault State :=
  match readEntry .rlutV Config.tableDepth s.rlutV c.toNat with
  | .error f => .error f
  | .ok v =>
    if v = 1 then (readEntry .rlutD Config.tableDepth s.rlutD c.toNat).map fun d => accumulate d s
    else .ok (latchError .invalidCharacter s)

/-- DCHAR (42_decode.md R146). -/
def execDchar (c : Byte) (s : State) : Host.Outcome State Fault Refusal :=
  if s.dact then
    if s.derr ≠ 0 then .next (respond s.derr 0 s)
    else if takesSign s.dsgn s.dfirst c then .next (respondOk 0 { s with dneg := true, dfirst := false })
    else outcomeOf (takeDigit c { s with dfirst := false, dany := true })
  else .next (raise .badSequence s)

/-- The response of DEND in an open session (42_decode.md R148). -/
def sessionResult (s : State) : State :=
  if s.derr ≠ 0 then respond s.derr 0 s
  else if !s.dany then raise .emptyInput s
  else if !s.dsgn then respondOk s.dacc s
  else if signedOverflow s.dacc s.dneg then raise .overflow s
  else if s.dneg then respondOk (neg64 s.dacc) s
  else respondOk s.dacc s

/-- DEND (42_decode.md R148). -/
def execDend (s : State) : Host.Outcome State Fault Refusal :=
  if s.dact then .next (sessionResult { s with dact := false }) else .next (raise .badSequence s)

end Sys2Proof.Machine
end

