-- ==== Sys2Proof/Machine/Encoder.lean ====
section
/-! DEFINITION. The commands of radix_encoder (41_encode.md). -/

namespace Sys2Proof.Machine

/-- ENCU (41_encode.md R122). -/
def execEncu (n : Value) (s : State) : Host.Outcome State Fault Refusal :=
  if s.valid then outcomeOf ((emitDigits n s).map respondLength) else .next (raise .noCodec s)

/-- The string part of ENCS: the digits of the magnitude, then the sign in front of them (41_encode.md R124). -/
def emitSigned (n : Value) (s : State) : Except Fault State :=
  match emitDigits (magnitude n) s with
  | .error f => .error f
  | .ok s' => if isNegative n then pushOut signChar s' else .ok s'

/-- ENCS (41_encode.md R124). -/
def execEncs (n : Value) (s : State) : Host.Outcome State Fault Refusal :=
  if s.valid then outcomeOf ((emitSigned n s).map respondLength) else .next (raise .noCodec s)

/-- The character OPOP takes, and the buffer after it (41_encode.md R128). -/
def popOut (s : State) : Except Fault State :=
  match readEntry .obuf Config.outDepth s.obuf s.opos.toNat with
  | .error f => .error f
  | .ok c => .ok (respondOk (c.setWidth 64) { s with opos := s.opos + 1 })

/-- OPOP (41_encode.md R128). -/
def execOpop (s : State) : Host.Outcome State Fault Refusal :=
  if s.opos = 65 then .next (raise .outputEmpty s) else outcomeOf (popOut s)

end Sys2Proof.Machine
end

