-- ==== Sys2Proof/Machine/Dispatch.lean ====
section
/-! DEFINITION. The dispatch: one arm a command (30_encoding.md R76). -/

namespace Sys2Proof.Machine

def exec (i : Instr) (s : State) : Host.Outcome State Fault Refusal :=
  match i with
  -- alphabet_rom
  | .abegin => Sys2Proof.Machine.execAbegin s
  | .apush c => Sys2Proof.Machine.execApush c s
  | .acommit => Sys2Proof.Machine.execAcommit s
  | .ldlower n => Sys2Proof.Machine.execLdlower n s
  | .ldupper n => Sys2Proof.Machine.execLdupper n s
  | .ldb64 => Sys2Proof.Machine.execLdb64 s
  | .base => Sys2Proof.Machine.execBase s
  -- radix_encoder
  | .encu n => Sys2Proof.Machine.execEncu n s
  | .encs n => Sys2Proof.Machine.execEncs n s
  | .opop => Sys2Proof.Machine.execOpop s
  -- radix_decoder and overflow_detector
  | .dbegu => Sys2Proof.Machine.execDbegu s
  | .dbegs => Sys2Proof.Machine.execDbegs s
  | .dchar c => Sys2Proof.Machine.execDchar c s
  | .dend => Sys2Proof.Machine.execDend s

end Sys2Proof.Machine
end

