-- ==== Sys2Proof/Machine/Step.lean ====
section
/-! DEFINITION. One step of the machine: the host's next action (20_memory.md R60, 70_reset_and_hazards.md R252). -/

namespace Sys2Proof.Machine

/-- Execute a command word (30_encoding.md R77, R78, R87): decode first, then the command's own rule. -/
def runWord (w : CmdWord) (s : State) : Host.Outcome State Fault Refusal :=
  match decode w with
  | .ok i => exec i s
  | .error _ => execIllegal s

/-- One step: take the host's next action and carry it out. With no action on the channel the block waits and nothing
changes (70_reset_and_hazards.md R230; log 5). -/
def step (s : State) : Host.Outcome State Fault Refusal :=
  match fetch s with
  | none => .next s
  | some (.command w, s') => runWord w s'
  | some (.reset, s') => .next (resetBlock s')
  | some (.commandCut _, s') => .next (resetBlock s')

/-- The word of `nbits` bits presented as the host's next action (log 1, log 7). -/
def State.withFetchWord (s : State) (nbits w : Nat) : State := presentWord (wordOfNat nbits w) s

end Sys2Proof.Machine
end

