-- ==== Sys2Proof/Machine/LengthBound.lean ====
section
/-! DEFINITION. The length functions of 10_state.md R43: functions of the radix alone, read by no command. -/

namespace Sys2Proof.Machine

/-- The least number from `k` on, and at most `fuel` above it, that satisfies `p`. -/
def leastFrom (p : Nat → Bool) : Nat → Nat → Nat
  | 0, k => k
  | fuel + 1, k => if p k then k else leastFrom p fuel (k + 1)

/-- `ndig(v, r)`, the least `k >= 1` with `v < r^k` (41_encode.md R126). -/
def ndig (v r : Nat) : Nat := leastFrom (fun k => decide (v < r ^ k)) 64 1

/-- `maxlen(r) = floor(log(2^64) / log(r) + 0.5) + 1` (10_state.md R43), where `floor(x + 0.5) = k` is the test
`r^(2k-1) <= 2^128 < r^(2k+1)` (log 9). -/
def maxlen (r : Nat) : Nat := leastFrom (fun k => decide (2 ^ 128 < r ^ (2 * k + 1))) 64 1 + 1

/-- `maxlen3(r) = ceil(log_r(2^64)) + 1` (10_state.md R43): the least `k` with `r^k >= 2^64`, and one more. -/
def maxlen3 (r : Nat) : Nat := leastFrom (fun k => decide (2 ^ 64 ≤ r ^ k)) 64 1 + 1

/-- `DU(r)`, the length of the longest unsigned output (10_state.md R43). -/
def longestUnsigned (r : Nat) : Nat := ndig (2 ^ 64 - 1) r

/-- `DS(r)`, the length of the longest signed output (10_state.md R43). -/
def longestSigned (r : Nat) : Nat := ndig (2 ^ 63) r + 1

end Sys2Proof.Machine
end

