-- ==== Sys2Proof/Machine/Macros.lean ====
section
/-! DEFINITION. Sequences of commands and the macros of the public operations (43_operations.md R170 to R176). -/

namespace Sys2Proof.Machine

/-- The state after a list of commands, the left fold of `exec` over it (20_memory.md R60). -/
def runInstrs : List Instr → State → Host.Outcome State Fault Refusal
  | [], s => .next s
  | i :: is, s =>
    match exec i s with
    | .next s' => runInstrs is s'
    | .fault f => .fault f
    | .refused r => .refused r

/-- `NEWCODEC a` (43_operations.md R171). -/
def newcodec (a : List Byte) : List Instr := .abegin :: (a.map .apush ++ [.acommit])

/-- `ENCODEU n`, where `k` is the length ENCU answered (43_operations.md R173). -/
def encodeu (n : Value) (k : Nat) : List Instr := .encu n :: List.replicate k .opop

/-- `ENCODES n`, where `k` is the length ENCS answered (43_operations.md R174). -/
def encodes (n : Value) (k : Nat) : List Instr := .encs n :: List.replicate k .opop

/-- `DECODEU s` (43_operations.md R175). -/
def decodeu (str : List Byte) : List Instr := .dbegu :: (str.map .dchar ++ [.dend])

/-- `DECODES s` (43_operations.md R176). -/
def decodes (str : List Byte) : List Instr := .dbegs :: (str.map .dchar ++ [.dend])

end Sys2Proof.Machine
end

