-- ==== Sys2Proof/Machine/Phase.lean ====
section
/-! DEFINITION. The phases and the table of which command is acceptable when (30_encoding.md R86). -/

namespace Sys2Proof.Machine

/-- The four phases (30_encoding.md R86). -/
inductive Phase where
  /-- No codec. -/
  | empty
  /-- Between ABEGIN and ACOMMIT. -/
  | building
  /-- A codec is loaded, no decode session open. -/
  | ready
  /-- A codec is loaded and a decode session is open. -/
  | decoding
deriving DecidableEq, Repr

/-- The phase of a state, `none` for the combinations that do not occur (30_encoding.md R86). -/
def phaseOf (s : State) : Option Phase :=
  match s.valid, s.build, s.dact with
  | false, false, false => some .empty
  | false, true, false => some .building
  | true, false, false => some .ready
  | true, false, true => some .decoding
  | _, _, _ => none

/-- The status with which a phase turns a command away, `none` where the command runs (30_encoding.md R86). -/
def phaseStatus : Instr → Phase → Option Status
  | .abegin, _ => none
  | .apush _, .building => none
  | .apush _, _ => some .badSequence
  | .acommit, .building => none
  | .acommit, _ => some .badSequence
  | .ldlower _, _ => none
  | .ldupper _, _ => none
  | .ldb64, _ => none
  | .base, .empty => some .noCodec
  | .base, .building => some .noCodec
  | .base, _ => none
  | .encu _, .empty => some .noCodec
  | .encu _, .building => some .noCodec
  | .encu _, _ => none
  | .encs _, .empty => some .noCodec
  | .encs _, .building => some .noCodec
  | .encs _, _ => none
  | .opop, _ => none
  | .dbegu, .empty => some .noCodec
  | .dbegu, .building => some .noCodec
  | .dbegu, _ => none
  | .dbegs, .empty => some .noCodec
  | .dbegs, .building => some .noCodec
  | .dbegs, _ => none
  | .dchar _, .decoding => none
  | .dchar _, _ => some .badSequence
  | .dend, .decoding => none
  | .dend, _ => some .badSequence

/-- The phases a command that runs can lead to (30_encoding.md R86). -/
def nextPhases : Instr → Phase → List Phase
  | .abegin, _ => [.building]
  | .apush _, p => [p]
  | .acommit, _ => [.ready, .empty]
  | .ldlower _, _ => [.ready, .empty]
  | .ldupper _, _ => [.ready, .empty]
  | .ldb64, _ => [.ready]
  | .base, p => [p]
  | .encu _, p => [p]
  | .encs _, p => [p]
  | .opop, p => [p]
  | .dbegu, _ => [.decoding]
  | .dbegs, _ => [.decoding]
  | .dchar _, p => [p]
  | .dend, _ => [.ready]

end Sys2Proof.Machine
end

