-- ==== Sys2Proof/Machine/Reference.lean ====
section
/-! DEFINITION. The reference functions of encode (41_encode.md R130) and decode (42_decode.md R156). A codec is given
as its radix `r` and its alphabet `A`, of which only `A 0 .. A (r-1)` count. -/

namespace Sys2Proof.Machine

/-- `digits(v)` (41_encode.md R130), least significant digit first in the recursion; `fuel` further digits at most. -/
def digitsFuel (r : Nat) (A : Nat → Byte) : Nat → Nat → List Byte
  | 0, v => [A (v % r)]
  | fuel + 1, v => if v < r then [A v] else digitsFuel r A fuel (v / r) ++ [A (v % r)]

/-- `digits(v)` for `v < 2^64` (41_encode.md R130): at most 64 digits. -/
def digits (r : Nat) (A : Nat → Byte) (v : Nat) : List Byte := digitsFuel r A 63 v

/-- `enc_u` (41_encode.md R130). -/
def encU (r : Nat) (A : Nat → Byte) (n : Value) : List Byte := digits r A n.toNat

/-- `enc_s` (41_encode.md R130). -/
def encS (r : Nat) (A : Nat → Byte) (n : Value) : List Byte :=
  if isNegative n then signChar :: digits r A (neg64 n).toNat else digits r A n.toNat

/-- The reverse lookup `L` of an alphabet: the digit of a character (42_decode.md R156). -/
def lookupIn (r : Nat) (A : Nat → Byte) (c : Byte) : Option Nat := (List.range r).find? fun i => A i == c

/-- `acc(a, s)` (42_decode.md R156). -/
def accFrom (r : Nat) (L : Byte → Option Nat) : Nat → List Byte → Except Status Nat
  | a, [] => .ok a
  | a, c :: w =>
    match L c with
    | none => .error .invalidCharacter
    | some d => if 2 ^ 64 ≤ a * r + d then .error .overflow else accFrom r L (a * r + d) w

/-- `dec_u(s)` (42_decode.md R156). -/
def decU (r : Nat) (L : Byte → Option Nat) (str : List Byte) : Except Status Nat :=
  if str = [] then .error .emptyInput else accFrom r L 0 str

/-- `finish(g, x)` (42_decode.md R156). -/
def finishSigned (g : Bool) (x : Except Status Nat) : Except Status Value :=
  match x with
  | .error e => .error e
  | .ok u =>
    if 2 ^ 63 ≤ u ∧ ¬(g = true ∧ u = 2 ^ 63) then .error .overflow
    else if g then .ok (neg64 (BitVec.ofNat 64 u))
    else .ok (BitVec.ofNat 64 u)

/-- `dec_s(s)` (42_decode.md R156). -/
def decS (r : Nat) (L : Byte → Option Nat) : List Byte → Except Status Value
  | [] => .error .emptyInput
  | c :: w => if c = signChar then finishSigned true (decU r L w) else finishSigned false (decU r L (c :: w))

/-- The value of a string all of whose characters have a digit, `sum of L(s[i]) * r^(k-1-i)` (42_decode.md R158),
continued from `a`; `none` if a character has none. -/
def valueFrom (r : Nat) (L : Byte → Option Nat) : Nat → List Byte → Option Nat
  | a, [] => some a
  | a, c :: w =>
    match L c with
    | none => none
    | some d => valueFrom r L (a * r + d) w

/-- The statuses the DCHARs of a session answer from the accumulator `a` on: OK up to the first offending character,
whose error then repeats (42_decode.md R154, R156). -/
def charStatuses (r : Nat) (L : Byte → Option Nat) : Nat → List Byte → List Status
  | _, [] => []
  | a, c :: w =>
    match L c with
    | none => List.replicate (w.length + 1) .invalidCharacter
    | some d =>
      if 2 ^ 64 ≤ a * r + d then List.replicate (w.length + 1) .overflow
      else .ok :: charStatuses r L (a * r + d) w

/-- The statuses the DCHARs of a signed session answer: a leading sign is taken (42_decode.md R146). -/
def signedStatuses (r : Nat) (L : Byte → Option Nat) : List Byte → List Status
  | [] => []
  | c :: w => if c = signChar then .ok :: charStatuses r L 0 w else charStatuses r L 0 (c :: w)

/-- The result of `NEWCODEC a` (43_operations.md R171): the size before the repeat. -/
def alphabetVerdict (a : List Byte) : Status :=
  if a.length < 2 ∨ 256 < a.length then .invalidAlphabetSize
  else if a.Nodup then .ok
  else .duplicateCharacter

/-- The response word of a decode result (42_decode.md R156): `(OK, a)` or `(E, 0)`. -/
def resultWord (x : Except Status Value) : RspWord :=
  match x with
  | .ok a => rspWord (statusCode .ok) a
  | .error e => rspWord (statusCode e) 0

end Sys2Proof.Machine
end

