-- ==== Sys2Proof/Safety.lean ====
section
/-! DEFINITION. What claims are stated in: a loaded codec and the invariants (10_state.md R44, R45), what a run reports
(70_reset_and_hazards.md R252), and what of a state later commands can tell apart (10_state.md R48). -/

namespace Sys2Proof.Machine

/-- The block holds the codec of radix `r` and alphabet `A` (10_state.md R44 (a), (b), (c)). -/
structure HoldsCodec (s : State) (r : Nat) (A : Nat → Byte) : Prop where
  valid : s.valid = true
  radix : s.radix.toNat = r
  radixMin : 2 ≤ r
  radixMax : r ≤ 256
  alpha : ∀ i, i < r → s.alpha.read i = some (A i)
  distinct : ∀ i j, i < r → j < r → A i = A j → i = j
  present : ∀ i, i < r → s.rlutV.read (A i).toNat = some 1 ∧ s.rlutD.read (A i).toNat = some (BitVec.ofNat 8 i)
  absent : ∀ b : Byte, (∀ i, i < r → A i ≠ b) → s.rlutV.read b.toNat = some 0

/-- How many table entries the open construction has considered: ACNT, but never more than 256
(40_alphabet.md R104). -/
def considered (s : State) : Nat := min s.acnt.toNat 256

/-- The tables of an open construction: every valid bit holds a value, and while no character was repeated the digits
offered so far are exactly the entries of the tables (40_alphabet.md R104, R106). -/
structure HoldsBuild (s : State) : Prop where
  cleared : ∀ b : Byte, s.rlutV.read b.toNat ≠ none
  present : s.adup = false → ∀ i, i < considered s → ∃ c : Byte, s.alpha.read i = some c ∧
    s.rlutV.read c.toNat = some 1 ∧ s.rlutD.read c.toNat = some (BitVec.ofNat 8 i)
  absent : s.adup = false → ∀ b : Byte, (∀ i, i < considered s → s.alpha.read i ≠ some b) →
    s.rlutV.read b.toNat = some 0

/-- The invariants of the block: 10_state.md R44, R45 (d) to (i), R25, and what keeps them inductive. -/
structure Inv (s : State) : Prop where
  /-- The memories are in canonical form, of the depths of 20_memory.md R50. -/
  alphaWf : s.alpha.wf Config.tableDepth = true
  rlutVWf : s.rlutV.wf Config.tableDepth = true
  rlutDWf : s.rlutD.wf Config.tableDepth = true
  obufWf : s.obuf.wf Config.outDepth = true
  /-- R44. -/
  codec : s.valid = true → ∃ A, HoldsCodec s s.radix.toNat A
  /-- R45 (d). -/
  buildAlone : s.build = true → s.valid = false ∧ s.dact = false
  /-- R45 (e). -/
  sessionHasCodec : s.dact = true → s.valid = true ∧ s.build = false
  /-- R45 (f). -/
  radixZero : s.valid = false → s.radix = 0
  /-- R45 (g). -/
  oposMax : s.opos.toNat ≤ 65
  /-- R45 (h). -/
  acntMax : s.acnt.toNat ≤ 257
  /-- R45 (i). -/
  derrLegal : s.derr = 0 ∨ s.derr = 4 ∨ s.derr = 5
  /-- The tables of an open construction. -/
  building : s.build = true → HoldsBuild s
  /-- The output held was written (10_state.md R48). -/
  output : ∀ i, s.opos.toNat ≤ i → i < Config.outDepth → s.obuf.read i ≠ none
  /-- An error is latched only by a character other than the sign (42_decode.md R148). -/
  latched : s.dact = true → s.derr ≠ 0 → s.dany = true
  /-- Before its first character a session has taken nothing (10_state.md R25). -/
  fresh : s.dact = true → s.dfirst = true → s.dneg = false ∧ s.dany = false ∧ s.derr = 0
  /-- Before its first character other than the sign the accumulator is 0 (10_state.md R45 (j)). -/
  noDigit : s.dact = true → s.dany = false → s.dacc = 0
  /-- A sign is taken only in a signed session (10_state.md R25). -/
  signSigned : s.dact = true → s.dneg = true → s.dsgn = true

/-! ## What a run reports -/

/-- The last response delivered. -/
def lastRsp (s : State) : Option RspWord := s.rspOut.getLast?

/-- A response with status 6, 7, 8 or 9: the host broke the protocol (70_reset_and_hazards.md R252). -/
def protocolError (r : RspWord) : Bool := decide (6 ≤ (rspStatus r).toNat ∧ (rspStatus r).toNat ≤ 9)

/-- A run is clean when no response of it is a protocol error (70_reset_and_hazards.md R252). -/
def cleanRun (rs : List RspWord) : Bool := rs.all fun r => !protocolError r

/-- The response channel after one more response: status and data. -/
def responded (s : State) (e : Status) (d : Value) : List RspWord := s.rspOut ++ [rspWord (statusCode e) d]

/-! ## Kinds of commands -/

/-- The six construction commands, the only ones that write VALID, RADIX, ALPHA or RLUT (10_state.md R44). -/
def isConstruction : Instr → Bool
  | .abegin => true
  | .apush _ => true
  | .acommit => true
  | .ldlower _ => true
  | .ldupper _ => true
  | .ldb64 => true
  | .base => false
  | .encu _ => false
  | .encs _ => false
  | .opop => false
  | .dbegu => false
  | .dbegs => false
  | .dchar _ => false
  | .dend => false

/-- The commands of radix_decoder (30_encoding.md R76). -/
def isDecoder : Instr → Bool
  | .abegin => false
  | .apush _ => false
  | .acommit => false
  | .ldlower _ => false
  | .ldupper _ => false
  | .ldb64 => false
  | .base => false
  | .encu _ => false
  | .encs _ => false
  | .opop => false
  | .dbegu => true
  | .dbegs => true
  | .dchar _ => true
  | .dend => true

/-- The statuses a command can report, OK and the column "Raised by" of 60_exceptions.md R200. -/
def statusesOf : Instr → List Status
  | .abegin => [.ok]
  | .apush _ => [.ok, .badSequence]
  | .acommit => [.ok, .invalidAlphabetSize, .duplicateCharacter, .badSequence]
  | .ldlower _ => [.ok, .invalidAlphabetSize]
  | .ldupper _ => [.ok, .invalidAlphabetSize]
  | .ldb64 => [.ok]
  | .base => [.ok, .noCodec]
  | .encu _ => [.ok, .noCodec]
  | .encs _ => [.ok, .noCodec]
  | .opop => [.ok, .outputEmpty]
  | .dbegu => [.ok, .noCodec]
  | .dbegs => [.ok, .noCodec]
  | .dchar _ => [.ok, .invalidCharacter, .overflow, .badSequence]
  | .dend => [.ok, .emptyInput, .invalidCharacter, .overflow, .badSequence]

/-! ## What a command leaves -/

/-- Digit `i` of `LOWER_REF`, by the ranges of 10_state.md R37. -/
def lowerChar (i : Nat) : Byte := if i < 10 then BitVec.ofNat 8 (0x30 + i) else BitVec.ofNat 8 (0x61 + (i - 10))

/-- Digit `i` of `UPPER_REF`, by the ranges of 10_state.md R37. -/
def upperChar (i : Nat) : Byte := if i < 10 then BitVec.ofNat 8 (0x30 + i) else BitVec.ofNat 8 (0x41 + (i - 10))

/-- Digit `i` of `B64_REF`, by the ranges of 10_state.md R37. -/
def b64Char (i : Nat) : Byte :=
  if i < 26 then BitVec.ofNat 8 (0x41 + i)
  else if i < 52 then BitVec.ofNat 8 (0x61 + (i - 26))
  else if i < 62 then BitVec.ofNat 8 (0x30 + (i - 52))
  else if i = 62 then 0x2B else 0x2F

/-- `t` is `s` after `clear_codec()` (40_alphabet.md R101), then BUILD as given and a response with data 0. -/
structure CodecCleared (building : Bool) (e : Status) (s t : State) : Prop where
  rest : t = { s with
    valid := false
    radix := 0
    build := building
    acnt := 0
    adup := false
    dact := false
    rlutV := t.rlutV
    rspOut := responded s e 0 }
  cleared : ∀ b : Byte, t.rlutV.read b.toNat = some 0

/-- `t` is `s` after a preset load of the first `n` characters of a reference (40_alphabet.md R101, R108). -/
structure PresetLoaded (char : Nat → Byte) (n : Nat) (s t : State) : Prop where
  rest : t = { s with
    valid := true
    radix := BitVec.ofNat 9 n
    build := false
    acnt := 0
    adup := false
    dact := false
    alpha := t.alpha
    rlutV := t.rlutV
    rlutD := t.rlutD
    rspOut := responded s .ok 0 }
  alphaNew : ∀ i, i < n → t.alpha.read i = some (char i)
  alphaOld : ∀ i, n ≤ i → t.alpha.read i = s.alpha.read i
  rlutNew : ∀ i, i < n → t.rlutV.read (char i).toNat = some 1 ∧ t.rlutD.read (char i).toNat = some (BitVec.ofNat 8 i)
  rlutOld : ∀ b : Byte, (∀ i, i < n → char i ≠ b) →
    t.rlutV.read b.toNat = some 0 ∧ t.rlutD.read b.toNat = s.rlutD.read b.toNat

/-- `t` is `s` after an encode that stored the string `str` (41_encode.md R122, R124). -/
structure OutputStored (str : List Byte) (s t : State) : Prop where
  rest : t = { s with
    obuf := t.obuf
    opos := t.opos
    rspOut := responded s .ok (BitVec.ofNat 64 str.length) }
  position : t.opos.toNat + str.length = 65
  chars : ∀ j, j < str.length → t.obuf.read (t.opos.toNat + j) = str[j]?
  others : ∀ a, a < 65 - str.length ∨ 65 ≤ a → t.obuf.read a = s.obuf.read a

/-! ## What later commands can tell apart -/

/-- Two states that no list of commands can tell apart: they agree on every register and entry some command can still
read (10_state.md R48, 40_alphabet.md R118, 93_implementation_defined.md U2, U3, U4). -/
structure SameToHost (s t : State) : Prop where
  valid : s.valid = t.valid
  radix : s.radix = t.radix
  build : s.build = t.build
  opos : s.opos = t.opos
  dact : s.dact = t.dact
  rspOut : s.rspOut = t.rspOut
  /-- The count and the duplicate flag are read only while a construction is open. -/
  acnt : s.build = true → s.acnt = t.acnt
  adup : s.build = true → s.adup = t.adup
  /-- The session registers are read only while a session is open. -/
  dsgn : s.dact = true → s.dsgn = t.dsgn
  dfirst : s.dact = true → s.dfirst = t.dfirst
  dneg : s.dact = true → s.dneg = t.dneg
  dany : s.dact = true → s.dany = t.dany
  dacc : s.dact = true → s.dacc = t.dacc
  derr : s.dact = true → s.derr = t.derr
  /-- ALPHA is read below RADIX; while building, the entries offered so far will be. -/
  alpha : s.valid = true → ∀ i, i < s.radix.toNat → s.alpha.read i = t.alpha.read i
  alphaBuild : s.build = true → s.adup = false → ∀ i, i < considered s → s.alpha.read i = t.alpha.read i
  /-- The valid bits are read while a codec is loaded or a construction is open; a digit only where the bit is 1. -/
  rlutV : s.valid = true ∨ s.build = true → ∀ b : Byte, s.rlutV.read b.toNat = t.rlutV.read b.toNat
  rlutD : s.valid = true ∨ s.build = true → ∀ b : Byte, s.rlutV.read b.toNat = some 1 →
    s.rlutD.read b.toNat = t.rlutD.read b.toNat
  /-- OBUF is read from OPOS on. -/
  obuf : ∀ i, s.opos.toNat ≤ i → i < Config.outDepth → s.obuf.read i = t.obuf.read i

end Sys2Proof.Machine
end

