-- ==== Sys2Proof/WellFormed.lean ====
section
/-! DEFINITION. Well-formed command words and commands (30_encoding.md R71 to R73, R78). -/

namespace Sys2Proof

/-- The format an opcode has, `none` where no command has it (30_encoding.md R76, R78). -/
def formatOfOpcode (op : BitVec 8) : Option Format :=
  if op ∈ [0x10#8, 0x12#8, 0x15#8, 0x16#8, 0x22#8, 0x30#8, 0x31#8, 0x33#8] then some .z
  else if op ∈ [0x11#8, 0x32#8] then some .c
  else if op ∈ [0x13#8, 0x14#8, 0x20#8, 0x21#8] then some .v
  else none

/-- A word is well formed when its opcode is assigned and its must-be-zero bits are 0 (30_encoding.md R78). -/
def wordWellFormed (w : CmdWord) : Bool :=
  match formatOfOpcode (opField w) with
  | some .z => valueField w == 0
  | some .c => charZeroField w == 0
  | some .v => true
  | none => false

/-- A command is well formed when its word is. The types of the operands already admit exactly the legal ones
(30_encoding.md R72 "every value legal", R73 "every value legal as an encoding"), so this holds of every command; what
can be ill formed is a word. -/
def Instr.wellFormed (i : Instr) : Bool := wordWellFormed (encode i)

end Sys2Proof
end

