-- ==== Sys2Proof/Certificates/Slice0/Obligations.lean ====
section
/-! DEFINITION. The statements for the provers, taken from the numbered rules of spec/. -/

open Sys2Proof Sys2Proof.Machine

/-! ## Reset and the step -/

/-- 10_state.md R47: the value of every register after reset; the phase is EMPTY and no output is held. -/
def Obligations.ResetLeavesTheStatedRegisterValues : Prop :=
  State.reset.valid = false ∧ State.reset.radix = 0 ∧ State.reset.build = false ∧ State.reset.acnt = 0 ∧
  State.reset.adup = false ∧ State.reset.opos = 65 ∧ State.reset.dact = false ∧ State.reset.dsgn = false ∧
  State.reset.dfirst = false ∧ State.reset.dneg = false ∧ State.reset.dany = false ∧ State.reset.dacc = 0 ∧
  State.reset.derr = 0 ∧ phaseOf State.reset = some .empty ∧ outLength State.reset = 0

/-- 70_reset_and_hazards.md R230, R232: reset, between commands or cutting one short, leaves the reset state whatever
the state was, and produces no response. That the host's later actions and the responses it already has stay on the
channels is the model's choice (log 6). -/
def Obligations.StepUnderResetLeavesTheResetState : Prop :=
  ∀ (s : State) (w : CmdWord) (rest : List HostAction),
    (s.cmdIn = .reset :: rest → step s = .next { State.reset with cmdIn := rest, rspOut := s.rspOut }) ∧
    (s.cmdIn = .commandCut w :: rest → step s = .next { State.reset with cmdIn := rest, rspOut := s.rspOut })

/-- The block waits for a command: with no host action a step changes nothing. The model's choice (log 5), from
70_reset_and_hazards.md R230. -/
def Obligations.StepWithoutHostActionWaits : Prop :=
  ∀ s : State, s.cmdIn = [] → step s = .next s

/-- A step whose next host action is a command word that decodes to `i` is `exec i` after taking that action
(20_memory.md R60, 30_encoding.md R77), also for a word presented by `withFetchWord` (log 1). -/
def Obligations.StepRunsTheDecodedCommand : Prop :=
  (∀ (s : State) (w : CmdWord) (rest : List HostAction) (i : Instr),
    s.cmdIn = .command w :: rest → decode w = .ok i → step s = exec i { s with cmdIn := rest }) ∧
  (∀ (s : State) (w : Nat) (i : Instr), decodeTableWord 72 w = some i → step (s.withFetchWord 72 w) = exec i s)

/-- 60_exceptions.md R208: a step whose next host action is a word that decode rejects responds IllegalCommand and
changes no other state, in any phase. -/
def Obligations.StepAnswersIllegalWordsAndChangesNothing : Prop :=
  ∀ (s : State) (w : CmdWord) (rest : List HostAction) (e : IllegalWord),
    s.cmdIn = .command w :: rest → decode w = .error e →
      step s = .next { s with cmdIn := rest, rspOut := responded s .illegalCommand 0 }

/-- 20_memory.md R60: presenting the words of a list of commands and stepping once for each of them leaves the state
that the left fold of the commands leaves. -/
def Obligations.RunIsTheLeftFoldOfTheCommands : Prop :=
  ∀ (is : List Instr) (s : State), s.cmdIn = [] →
    Host.Core.run Sys2Proof.core is.length { s with cmdIn := is.map fun i => .command (encode i) } = runInstrs is s

/-! ## Encoding -/

/-- Decode and encode agree on every command, with every operand. -/
def Obligations.DecodeOfEncodeIsTheCommand : Prop :=
  ∀ i : Instr, decode (encode i) = .ok i

/-- A word that decodes is the encoding of what it decodes to: no two words have one meaning. -/
def Obligations.EncodeOfDecodeIsTheWord : Prop :=
  ∀ (w : CmdWord) (i : Instr), decode w = .ok i → encode i = w

/-- 30_encoding.md R76: a word is the command of a row of the opcode map exactly when `w AND mask = match`, and a word
that matches no row is illegal. -/
def Obligations.DecodeFollowsTheOpcodeMap : Prop :=
  (∀ (w : CmdWord) (row : OpcodeRow), row ∈ opcodeMap →
    (w &&& row.mask = row.pattern ↔ ∃ i, decode w = .ok i ∧ i.mnemonic = row.mnemonic)) ∧
  (∀ w : CmdWord, (∀ row ∈ opcodeMap, w &&& row.mask ≠ row.pattern) → ∃ e, decode w = .error e)

/-- 30_encoding.md R78: exactly which words are illegal, and that an illegal word responds IllegalCommand and changes
no state. -/
def Obligations.IllegalWordsAreExactlyTheStatedOnes : Prop :=
  (∀ w : CmdWord, (∃ e, decode w = .error e) ↔
    (¬((0x10 ≤ (opField w).toNat ∧ (opField w).toNat ≤ 0x16) ∨ (0x20 ≤ (opField w).toNat ∧ (opField w).toNat ≤ 0x22) ∨
       (0x30 ≤ (opField w).toNat ∧ (opField w).toNat ≤ 0x33))) ∨
    (opField w ∈ [0x10#8, 0x12#8, 0x15#8, 0x16#8, 0x22#8, 0x30#8, 0x31#8, 0x33#8] ∧ w.extractLsb' 0 64 ≠ 0#64) ∨
    (opField w ∈ [0x11#8, 0x32#8] ∧ w.extractLsb' 8 56 ≠ 0#56)) ∧
  (∀ (w : CmdWord) (e : IllegalWord) (s : State), decode w = .error e →
    runWord w s = .next { s with rspOut := responded s .illegalCommand 0 })

/-- Words written out from the encoding tables (30_encoding.md R76, 95_test_vectors.md 2.5) decode to the commands they
stand for, one of each unit and format. -/
def Obligations.SampleWordsDecode : Prop :=
  decode 0x1100000000000000FF#72 = .ok (.apush 0xFF) ∧
  decode 0x130000000000000024#72 = .ok (.ldlower 36) ∧
  decode 0x160000000000000000#72 = .ok .base ∧
  decode 0x20FFFFFFFFFFFFFFFF#72 = .ok (.encu 0xFFFFFFFFFFFFFFFF) ∧
  decode 0x220000000000000000#72 = .ok .opop ∧
  decode 0x32000000000000002D#72 = .ok (.dchar 0x2D) ∧
  decode 0x330000000000000000#72 = .ok .dend

/-! ## What each command does

Each of these begins with the command's encoding, which its rule names, and answers a next state in every phase. -/

/-- 40_alphabet.md R102 (with R101): ABEGIN removes the codec, closes the session and opens a construction; it cannot
fail, in any phase. -/
def Obligations.AbeginOpensAnEmptyConstruction : Prop :=
  decode (0x10#8 ++ 0#64) = .ok .abegin ∧
  ∀ s : State, ∃ t, exec .abegin s = .next t ∧ CodecCleared true .ok s t

/-- 40_alphabet.md R104: APUSH in every case: a new character takes the next digit, a repeated one sets ADUP, beyond
256 only the count moves, and with no construction open it is BadSequence. -/
def Obligations.ApushOffersTheNextDigit : Prop :=
  ∀ (c : Byte) (s : State),
    decode (0x11#8 ++ c.setWidth 64) = .ok (.apush c) ∧
    (s.build = false → exec (.apush c) s = .next { s with rspOut := responded s .badSequence 0 }) ∧
    (s.build = true → s.acnt.toNat ≤ 255 → s.rlutV.read c.toNat = some 1 →
      exec (.apush c) s = .next { s with adup := true, acnt := s.acnt + 1, rspOut := responded s .ok 0 }) ∧
    (s.build = true → s.acnt.toNat ≤ 255 → s.rlutV.read c.toNat = some 0 →
      ∃ t, exec (.apush c) s = .next t ∧
        t = { s with
          alpha := t.alpha
          rlutV := t.rlutV
          rlutD := t.rlutD
          acnt := s.acnt + 1
          rspOut := responded s .ok 0 } ∧
        (∀ a, t.alpha.read a = if a = s.acnt.toNat then some c else s.alpha.read a) ∧
        (∀ b, t.rlutV.read b = if b = c.toNat then some 1 else s.rlutV.read b) ∧
        (∀ b, t.rlutD.read b = if b = c.toNat then some (s.acnt.setWidth 8) else s.rlutD.read b)) ∧
    (s.build = true → 256 ≤ s.acnt.toNat →
      exec (.apush c) s = .next { s with acnt := 257, rspOut := responded s .ok 0 })

/-- 40_alphabet.md R106: ACOMMIT in every case, the size failure before the duplicate failure. -/
def Obligations.AcommitChecksSizeThenDuplicate : Prop :=
  decode (0x12#8 ++ 0#64) = .ok .acommit ∧
  ∀ s : State,
    (s.build = false → exec .acommit s = .next { s with rspOut := responded s .badSequence 0 }) ∧
    (s.build = true → s.acnt.toNat < 2 ∨ 256 < s.acnt.toNat →
      exec .acommit s = .next { s with build := false, rspOut := responded s .invalidAlphabetSize 0 }) ∧
    (s.build = true → 2 ≤ s.acnt.toNat → s.acnt.toNat ≤ 256 → s.adup = true →
      exec .acommit s = .next { s with build := false, rspOut := responded s .duplicateCharacter 0 }) ∧
    (s.build = true → 2 ≤ s.acnt.toNat → s.acnt.toNat ≤ 256 → s.adup = false →
      exec .acommit s = .next
        { s with build := false, radix := s.acnt, valid := true, rspOut := responded s .ok 0 })

/-- 40_alphabet.md R110 (with R101, R108, 10_state.md R37): LDLOWER loads the first `n` characters of LOWER_REF, or
fails and leaves no codec, on all 64 bits of the operand and in every phase. -/
def Obligations.LdlowerLoadsTheLowerCasePreset : Prop :=
  ∀ (n : Value) (s : State),
    decode (0x13#8 ++ n) = .ok (.ldlower n) ∧
    (2 ≤ n.toNat → n.toNat ≤ 36 → ∃ t, exec (.ldlower n) s = .next t ∧ PresetLoaded lowerChar n.toNat s t) ∧
    (n.toNat < 2 ∨ 36 < n.toNat →
      ∃ t, exec (.ldlower n) s = .next t ∧ CodecCleared false .invalidAlphabetSize s t)

/-- 40_alphabet.md R112 (with R101, R108, 10_state.md R37): LDUPPER, with UPPER_REF in place of LOWER_REF. -/
def Obligations.LdupperLoadsTheUpperCasePreset : Prop :=
  ∀ (n : Value) (s : State),
    decode (0x14#8 ++ n) = .ok (.ldupper n) ∧
    (2 ≤ n.toNat → n.toNat ≤ 36 → ∃ t, exec (.ldupper n) s = .next t ∧ PresetLoaded upperChar n.toNat s t) ∧
    (n.toNat < 2 ∨ 36 < n.toNat →
      ∃ t, exec (.ldupper n) s = .next t ∧ CodecCleared false .invalidAlphabetSize s t)

/-- 40_alphabet.md R114 (with R101, R108, 10_state.md R37): LDB64 loads the base-64 alphabet and cannot fail. -/
def Obligations.LdbLoadsTheBaseSixtyFourPreset : Prop :=
  decode (0x15#8 ++ 0#64) = .ok .ldb64 ∧
  ∀ s : State, ∃ t, exec .ldb64 s = .next t ∧ PresetLoaded b64Char 64 s t

/-- 40_alphabet.md R116: BASE answers the radix and changes no state; with no codec it is NoCodec. -/
def Obligations.BaseAnswersTheRadix : Prop :=
  decode (0x16#8 ++ 0#64) = .ok .base ∧
  ∀ s : State,
    (s.valid = true → exec .base s = .next { s with rspOut := responded s .ok (s.radix.setWidth 64) }) ∧
    (s.valid = false → exec .base s = .next { s with rspOut := responded s .noCodec 0 })

/-- 41_encode.md R122 (with R120; the string is that of R130): with no codec ENCU is NoCodec; with one it stores the
unsigned digits of its operand, whatever the operand, and answers their number. -/
def Obligations.EncuStoresTheUnsignedDigits : Prop :=
  ∀ (n : Value) (s : State),
    decode (0x20#8 ++ n) = .ok (.encu n) ∧
    (s.valid = false → exec (.encu n) s = .next { s with rspOut := responded s .noCodec 0 }) ∧
    (∀ A : Nat → Byte, s.valid = true → 2 ≤ s.radix.toNat → s.radix.toNat ≤ 256 →
      (∀ i, i < s.radix.toNat → s.alpha.read i = some (A i)) →
        ∃ t, exec (.encu n) s = .next t ∧ OutputStored (encU s.radix.toNat A n) s t)

/-- 41_encode.md R124 (with R120; the string is that of R130): with no codec ENCS is NoCodec; with one it stores the
digits of the operand's magnitude, after the sign when it is negative, whatever the operand, and answers the length. -/
def Obligations.EncsStoresTheSignAndTheMagnitude : Prop :=
  ∀ (n : Value) (s : State),
    decode (0x21#8 ++ n) = .ok (.encs n) ∧
    (s.valid = false → exec (.encs n) s = .next { s with rspOut := responded s .noCodec 0 }) ∧
    (∀ A : Nat → Byte, s.valid = true → 2 ≤ s.radix.toNat → s.radix.toNat ≤ 256 →
      (∀ i, i < s.radix.toNat → s.alpha.read i = some (A i)) →
        ∃ t, exec (.encs n) s = .next t ∧ OutputStored (encS s.radix.toNat A n) s t)

/-- 41_encode.md R128: OPOP answers OBUF[OPOS] and advances OPOS; with nothing to read it is OutputEmpty. -/
def Obligations.OpopTakesTheNextCharacter : Prop :=
  decode (0x22#8 ++ 0#64) = .ok .opop ∧
  ∀ s : State,
    (∀ c : Byte, s.opos.toNat < 65 → s.obuf.read s.opos.toNat = some c →
      exec .opop s = .next { s with opos := s.opos + 1, rspOut := responded s .ok (c.setWidth 64) }) ∧
    (s.opos = 65 → exec .opop s = .next { s with rspOut := responded s .outputEmpty 0 })

/-- 42_decode.md R142: DBEGU opens an unsigned session, abandoning an open one; with no codec it is NoCodec. -/
def Obligations.DbeguOpensAnUnsignedSession : Prop :=
  decode (0x30#8 ++ 0#64) = .ok .dbegu ∧
  ∀ s : State,
    (s.valid = true → exec .dbegu s = .next { s with
      dact := true, dsgn := false, dfirst := true, dneg := false, dany := false, dacc := 0, derr := 0,
      rspOut := responded s .ok 0 }) ∧
    (s.valid = false → exec .dbegu s = .next { s with rspOut := responded s .noCodec 0 })

/-- 42_decode.md R144: DBEGS opens a signed session, abandoning an open one; with no codec it is NoCodec. -/
def Obligations.DbegsOpensASignedSession : Prop :=
  decode (0x31#8 ++ 0#64) = .ok .dbegs ∧
  ∀ s : State,
    (s.valid = true → exec .dbegs s = .next { s with
      dact := true, dsgn := true, dfirst := true, dneg := false, dany := false, dacc := 0, derr := 0,
      rspOut := responded s .ok 0 }) ∧
    (s.valid = false → exec .dbegs s = .next { s with rspOut := responded s .noCodec 0 })

/-- 42_decode.md R146 (with R150): DCHAR in every case, in the order of its tests: a latched error, the sign, the
lookup, the exact multiply-add. -/
def Obligations.DcharTakesSignLooksUpAndAccumulates : Prop :=
  ∀ (c : Byte) (s : State),
    decode (0x32#8 ++ c.setWidth 64) = .ok (.dchar c) ∧
    (s.dact = false → exec (.dchar c) s = .next { s with rspOut := responded s .badSequence 0 }) ∧
    (s.dact = true → s.derr ≠ 0 → exec (.dchar c) s = .next { s with rspOut := s.rspOut ++ [rspWord s.derr 0] }) ∧
    (s.dact = true → s.derr = 0 → s.dsgn = true ∧ s.dfirst = true ∧ c = 0x2D →
      exec (.dchar c) s = .next { s with dneg := true, dfirst := false, rspOut := responded s .ok 0 }) ∧
    (s.dact = true → s.derr = 0 → ¬(s.dsgn = true ∧ s.dfirst = true ∧ c = 0x2D) →
      s.rlutV.read c.toNat = some 0 →
        exec (.dchar c) s = .next
          { s with dfirst := false, dany := true, derr := 4, rspOut := responded s .invalidCharacter 0 }) ∧
    (∀ d : Byte, s.dact = true → s.derr = 0 → ¬(s.dsgn = true ∧ s.dfirst = true ∧ c = 0x2D) →
      s.rlutV.read c.toNat = some 1 → s.rlutD.read c.toNat = some d →
        exec (.dchar c) s = .next
          (if 2 ^ 64 ≤ s.dacc.toNat * s.radix.toNat + d.toNat then
            { s with dfirst := false, dany := true, derr := 5, rspOut := responded s .overflow 0 }
          else
            { s with
              dfirst := false
              dany := true
              dacc := BitVec.ofNat 64 (s.dacc.toNat * s.radix.toNat + d.toNat)
              rspOut := responded s .ok 0 }))

/-- 42_decode.md R148 (with R152): DEND in every case, in the order of its tests: the latched error, EmptyInput, the
signed range, and only then the negation. -/
def Obligations.DendDeliversTheResult : Prop :=
  decode (0x33#8 ++ 0#64) = .ok .dend ∧
  ∀ s : State,
    (s.dact = false → exec .dend s = .next { s with rspOut := responded s .badSequence 0 }) ∧
    (s.dact = true → s.derr ≠ 0 →
      exec .dend s = .next { s with dact := false, rspOut := s.rspOut ++ [rspWord s.derr 0] }) ∧
    (s.dact = true → s.derr = 0 → s.dany = false →
      exec .dend s = .next { s with dact := false, rspOut := responded s .emptyInput 0 }) ∧
    (s.dact = true → s.derr = 0 → s.dany = true → s.dsgn = false →
      exec .dend s = .next { s with dact := false, rspOut := responded s .ok s.dacc }) ∧
    (s.dact = true → s.derr = 0 → s.dany = true → s.dsgn = true →
      exec .dend s = .next { s with
        dact := false
        rspOut :=
          if 2 ^ 63 ≤ s.dacc.toNat ∧ ¬(s.dneg = true ∧ s.dacc.toNat = 2 ^ 63) then responded s .overflow 0
          else if s.dneg = true then responded s .ok (-s.dacc)
          else responded s .ok s.dacc })

/-! ## Phases and statuses -/

/-- 60_exceptions.md R206: NoCodec exactly from BASE, ENCU, ENCS, DBEGU, DBEGS with VALID = 0, and no state change. -/
def Obligations.NoCodecTurnsAwayTheFiveCommands : Prop :=
  ∀ (i : Instr) (s : State),
    (s.valid = false → (i = .base ∨ (∃ n, i = .encu n) ∨ (∃ n, i = .encs n) ∨ i = .dbegu ∨ i = .dbegs) →
      exec i s = .next { s with rspOut := responded s .noCodec 0 }) ∧
    (∀ t : State, Inv s → exec i s = .next t → (∃ d, t.rspOut = responded s .noCodec d) →
      s.valid = false ∧ (i = .base ∨ (∃ n, i = .encu n) ∨ (∃ n, i = .encs n) ∨ i = .dbegu ∨ i = .dbegs))

/-- 30_encoding.md R86: with the invariants one of the four phases is current; a command that the table of phases turns
away responds with the table's status and changes no state; a command that runs leads to a phase that the table gives
for it; an illegal word is IllegalCommand in every phase and changes nothing. -/
def Obligations.CommandsFollowThePhaseTable : Prop :=
  (∀ s : State, Inv s → ∃ p, phaseOf s = some p) ∧
  (∀ (i : Instr) (s : State) (p : Phase) (e : Status), phaseOf s = some p → phaseStatus i p = some e →
    exec i s = .next { s with rspOut := responded s e 0 }) ∧
  (∀ (i : Instr) (s t : State) (p : Phase), phaseOf s = some p → phaseStatus i p = none → exec i s = .next t →
    ∃ q, q ∈ nextPhases i p ∧ phaseOf t = some q) ∧
  (∀ (w : CmdWord) (e : IllegalWord) (s : State), decode w = .error e →
    runWord w s = .next { s with rspOut := responded s .illegalCommand 0 })

/-- 20_memory.md R61: a command that completes produces exactly one response, after all earlier ones, and leaves the
host's other actions alone. -/
def Obligations.EveryCommandProducesOneResponse : Prop :=
  ∀ (i : Instr) (s t : State), exec i s = .next t → t.cmdIn = s.cmdIn ∧ ∃ r, t.rspOut = s.rspOut ++ [r]

/-- 30_encoding.md R75: the data of a response whose status is not 0 is 0. -/
def Obligations.ErrorResponsesCarryNoData : Prop :=
  ∀ (i : Instr) (s t : State) (r : RspWord), exec i s = .next t → t.rspOut = s.rspOut ++ [r] →
    rspStatus r ≠ 0 → rspData r = 0

/-- 60_exceptions.md R200: every response of a command has one of the statuses that the table says it can raise; in
particular codes 10 to 15 are never produced. -/
def Obligations.CommandsReportOnlyTheirStatuses : Prop :=
  ∀ (i : Instr) (s t : State) (r : RspWord), Inv s → exec i s = .next t → t.rspOut = s.rspOut ++ [r] →
    (∃ e, e ∈ statusesOf i ∧ rspStatus r = statusCode e) ∧ (rspStatus r).toNat ≤ 9

/-- 60_exceptions.md R214, first row: a command that responds with NoCodec, BadSequence, IllegalCommand or OutputEmpty
writes nothing. -/
def Obligations.ProtocolErrorsChangeNothing : Prop :=
  ∀ (i : Instr) (s t : State) (r : RspWord), Inv s → exec i s = .next t → t.rspOut = s.rspOut ++ [r] →
    protocolError r = true → t = { s with rspOut := t.rspOut }

/-! ## Frames -/

/-- 10_state.md R44, 40_alphabet.md R118: the commands other than the six construction commands, when they complete,
leave VALID, RADIX, BUILD, ACNT, ADUP and every entry of ALPHA and RLUT as they were. -/
def Obligations.OtherCommandsKeepTheCodec : Prop :=
  ∀ (i : Instr) (s t : State), isConstruction i = false → exec i s = .next t →
    t.valid = s.valid ∧ t.radix = s.radix ∧ t.build = s.build ∧ t.acnt = s.acnt ∧ t.adup = s.adup ∧
    (∀ a, t.alpha.read a = s.alpha.read a) ∧ (∀ b, t.rlutV.read b = s.rlutV.read b) ∧
    (∀ b, t.rlutD.read b = s.rlutD.read b)

/-- 70_reset_and_hazards.md R242: nothing but ENCU, ENCS and OPOP disturbs the output: the construction commands, BASE
and the decoder's commands leave OPOS and every entry of OBUF as they were. -/
def Obligations.OtherCommandsKeepTheOutput : Prop :=
  ∀ (i : Instr) (s t : State), isConstruction i = true ∨ isDecoder i = true ∨ i = .base → exec i s = .next t →
    t.opos = s.opos ∧ ∀ a, t.obuf.read a = s.obuf.read a

/-- 10_state.md R25, R31 to R33, 40_alphabet.md R101: the commands of the other two units leave DSGN, DFIRST, DNEG,
DANY, DACC and DERR as they were; ABEGIN and the preset loads clear DACT and the others leave it. -/
def Obligations.OtherCommandsKeepTheSession : Prop :=
  ∀ (i : Instr) (s t : State), isDecoder i = false → exec i s = .next t →
    t.dsgn = s.dsgn ∧ t.dfirst = s.dfirst ∧ t.dneg = s.dneg ∧ t.dany = s.dany ∧ t.dacc = s.dacc ∧
    t.derr = s.derr ∧
    t.dact = (if i = .abegin ∨ (∃ n, i = .ldlower n) ∨ (∃ n, i = .ldupper n) ∨ i = .ldb64 then false else s.dact)

/-- 20_memory.md R51, R57: APUSH and ACOMMIT write VALID, RADIX and BUILD only as their rules say and store to no entry
but ALPHA[ACNT] and RLUT[c]; ACOMMIT stores nothing. -/
def Obligations.ApushAndAcommitFrame : Prop :=
  (∀ (c : Byte) (s t : State), exec (.apush c) s = .next t →
    t.valid = s.valid ∧ t.radix = s.radix ∧ t.build = s.build ∧
    (∀ a, a ≠ s.acnt.toNat → t.alpha.read a = s.alpha.read a) ∧
    (∀ b, b ≠ c.toNat → t.rlutV.read b = s.rlutV.read b) ∧
    (∀ b, b ≠ c.toNat → t.rlutD.read b = s.rlutD.read b)) ∧
  (∀ s t : State, exec .acommit s = .next t →
    t.acnt = s.acnt ∧ t.adup = s.adup ∧ (∀ a, t.alpha.read a = s.alpha.read a) ∧
    (∀ b, t.rlutV.read b = s.rlutV.read b) ∧ (∀ b, t.rlutD.read b = s.rlutD.read b))

/-- 20_memory.md R51, 40_alphabet.md R101, R108: ABEGIN and a failing preset load store to no entry of ALPHA and to no
digit of RLUT; a successful preset load of `n` characters stores to ALPHA[0..n-1] and to the digits of those
characters only. -/
def Obligations.ClearAndPresetLoadFrame : Prop :=
  (∀ s t : State, exec .abegin s = .next t →
    (∀ a, t.alpha.read a = s.alpha.read a) ∧ (∀ b, t.rlutD.read b = s.rlutD.read b)) ∧
  (∀ (n : Value) (s t : State), exec (.ldlower n) s = .next t ∨ exec (.ldupper n) s = .next t →
    presetIllegal n = true → (∀ a, t.alpha.read a = s.alpha.read a) ∧ (∀ b, t.rlutD.read b = s.rlutD.read b)) ∧
  (∀ (n : Value) (s t : State), exec (.ldlower n) s = .next t → presetIllegal n = false →
    (∀ a, n.toNat ≤ a → t.alpha.read a = s.alpha.read a) ∧
    (∀ b, (∀ i, i < n.toNat → b ≠ (lowerChar i).toNat) → t.rlutD.read b = s.rlutD.read b)) ∧
  (∀ (n : Value) (s t : State), exec (.ldupper n) s = .next t → presetIllegal n = false →
    (∀ a, n.toNat ≤ a → t.alpha.read a = s.alpha.read a) ∧
    (∀ b, (∀ i, i < n.toNat → b ≠ (upperChar i).toNat) → t.rlutD.read b = s.rlutD.read b)) ∧
  (∀ s t : State, exec .ldb64 s = .next t →
    (∀ a, 64 ≤ a → t.alpha.read a = s.alpha.read a) ∧
    (∀ b, (∀ i, i < 64 → b ≠ (b64Char i).toNat) → t.rlutD.read b = s.rlutD.read b))

/-- 20_memory.md R51, R57: ENCU and ENCS store, when they complete with a codec loaded, to the entries of OBUF from
`65 - length` to 64 and to no other, where the length is that of the string of R130; OPOP, and an encode turned away,
store to no entry. -/
def Obligations.EncodeStoresOnlyItsString : Prop :=
  (∀ (n : Value) (s t : State) (A : Nat → Byte), s.valid = true → 2 ≤ s.radix.toNat →
    (∀ i, i < s.radix.toNat → s.alpha.read i = some (A i)) → exec (.encu n) s = .next t →
      ∀ a, a < 65 - (encU s.radix.toNat A n).length ∨ 65 ≤ a → t.obuf.read a = s.obuf.read a) ∧
  (∀ (n : Value) (s t : State) (A : Nat → Byte), s.valid = true → 2 ≤ s.radix.toNat →
    (∀ i, i < s.radix.toNat → s.alpha.read i = some (A i)) → exec (.encs n) s = .next t →
      ∀ a, a < 65 - (encS s.radix.toNat A n).length ∨ 65 ≤ a → t.obuf.read a = s.obuf.read a) ∧
  (∀ (i : Instr) (s t : State), i = .opop ∨ (s.valid = false ∧ ((∃ n, i = .encu n) ∨ ∃ n, i = .encs n)) →
    exec i s = .next t → ∀ a, t.obuf.read a = s.obuf.read a)

/-- 42_decode.md R142 to R148 (Flags written): a DCHAR that completes leaves DACT and DSGN as they were, and a DEND
every session register but DACT. -/
def Obligations.DcharAndDendFrame : Prop :=
  (∀ (c : Byte) (s t : State), exec (.dchar c) s = .next t → t.dact = s.dact ∧ t.dsgn = s.dsgn) ∧
  (∀ s t : State, exec .dend s = .next t →
    t.dsgn = s.dsgn ∧ t.dfirst = s.dfirst ∧ t.dneg = s.dneg ∧ t.dany = s.dany ∧ t.dacc = s.dacc ∧ t.derr = s.derr)

/-! ## Invariants -/

/-- The invariants hold in the reset state (10_state.md R45). -/
def Obligations.InvariantHoldsAtReset : Prop := Inv State.reset

/-- The invariants of 10_state.md R44 and R45, with the canonical form of the memories (log 2), are kept by every step
from every state that has them: every command, every illegal word, every reset. -/
def Obligations.StepKeepsTheInvariant : Prop :=
  ∀ s t : State, Inv s → step s = .next t → Inv t

/-- From every state with the invariants a step completes: no never-written entry is read, no index is out of range,
and the block never stops (10_state.md R48, 20_memory.md R58, 70_reset_and_hazards.md R250, R252). -/
def Obligations.StepCompletesUnderTheInvariant : Prop :=
  ∀ s : State, Inv s → ∃ t, step s = .next t

/-- From every state with the invariants every list of commands runs to its end (70_reset_and_hazards.md R252). -/
def Obligations.EveryListOfCommandsCompletes : Prop :=
  ∀ (is : List Instr) (s : State), Inv s →
    ∃ t, runInstrs is s = .next t ∧ Inv t ∧ t.rspOut.length = s.rspOut.length + is.length

/-- What the host cannot tell apart stays so (10_state.md R48, 40_alphabet.md R118): two states that agree on what
commands can still read give, under one command, the same response and again agree. -/
def Obligations.IndistinguishableStatesStaySo : Prop :=
  ∀ (i : Instr) (s t s' t' : State), Inv s → Inv t → SameToHost s t → exec i s = .next s' → exec i t = .next t' →
    SameToHost s' t'

/-- 40_alphabet.md R118: the start of a construction makes the host forget the codec and the session before it: from
any two states that agree on the output and the responses, ABEGIN and the preset loads lead to states no later command
tells apart. -/
def Obligations.ConstructionForgetsWhatWasBefore : Prop :=
  ∀ (i : Instr) (s t s' t' : State),
    i = .abegin ∨ (∃ n, i = .ldlower n) ∨ (∃ n, i = .ldupper n) ∨ i = .ldb64 →
    s.opos = t.opos → (∀ a, s.opos.toNat ≤ a → a < 65 → s.obuf.read a = t.obuf.read a) → s.rspOut = t.rspOut →
    exec i s = .next s' → exec i t = .next t' → SameToHost s' t'

/-! ## The public operations -/

/-- 43_operations.md R171: NEWCODEC, from any state: every earlier response is (OK, 0), ACOMMIT answers the verdict on
the alphabet, and the block then holds that alphabet, or no codec. -/
def Obligations.NewcodecBuildsTheAlphabet : Prop :=
  ∀ (a : List Byte) (s : State), ∃ t, runInstrs (newcodec a) s = .next t ∧
    t.rspOut = s.rspOut ++ List.replicate (a.length + 1) (rspWord (statusCode .ok) 0) ++
      [rspWord (statusCode (alphabetVerdict a)) 0] ∧
    (alphabetVerdict a = .ok → HoldsCodec t a.length fun i => a.getD i 0) ∧
    (alphabetVerdict a ≠ .ok → phaseOf t = some .empty ∧ t.radix = 0)

/-- 43_operations.md R173: ENCODEU delivers `enc_u(n)`, character by character, and leaves codec and session alone. -/
def Obligations.EncodeUnsignedDeliversTheString : Prop :=
  ∀ (n : Value) (s : State) (r : Nat) (A : Nat → Byte), HoldsCodec s r A →
    ∃ t, runInstrs (encodeu n (encU r A n).length) s = .next t ∧
      t = { s with obuf := t.obuf, opos := 65, rspOut := t.rspOut } ∧
      t.rspOut = s.rspOut ++ rspWord (statusCode .ok) (BitVec.ofNat 64 (encU r A n).length) ::
        (encU r A n).map fun c => rspWord (statusCode .ok) (c.setWidth 64)

/-- 43_operations.md R174: ENCODES delivers `enc_s(n)`, character by character, and leaves codec and session alone. -/
def Obligations.EncodeSignedDeliversTheString : Prop :=
  ∀ (n : Value) (s : State) (r : Nat) (A : Nat → Byte), HoldsCodec s r A →
    ∃ t, runInstrs (encodes n (encS r A n).length) s = .next t ∧
      t = { s with obuf := t.obuf, opos := 65, rspOut := t.rspOut } ∧
      t.rspOut = s.rspOut ++ rspWord (statusCode .ok) (BitVec.ofNat 64 (encS r A n).length) ::
        (encS r A n).map fun c => rspWord (statusCode .ok) (c.setWidth 64)

/-- 42_decode.md R156: an unsigned session over any string ends with the response of `dec_u`, every DCHAR answering OK
up to the first offending character and that character's error from there on. -/
def Obligations.DecodeUnsignedSessionComputesDecU : Prop :=
  ∀ (str : List Byte) (s : State) (r : Nat) (A : Nat → Byte), HoldsCodec s r A →
    ∃ t, runInstrs (decodeu str) s = .next t ∧ HoldsCodec t r A ∧ t.dact = false ∧
      t.rspOut = s.rspOut ++ rspWord (statusCode .ok) 0 ::
        (charStatuses r (lookupIn r A) 0 str).map (fun e => rspWord (statusCode e) 0) ++
        [resultWord ((decU r (lookupIn r A) str).map (BitVec.ofNat 64))]

/-- 42_decode.md R156: a signed session over any string ends with the response of `dec_s`, a leading sign being taken
and every other DCHAR answering OK up to the first offending character. -/
def Obligations.DecodeSignedSessionComputesDecS : Prop :=
  ∀ (str : List Byte) (s : State) (r : Nat) (A : Nat → Byte), HoldsCodec s r A →
    ∃ t, runInstrs (decodes str) s = .next t ∧ HoldsCodec t r A ∧ t.dact = false ∧
      t.rspOut = s.rspOut ++ rspWord (statusCode .ok) 0 ::
        (signedStatuses r (lookupIn r A) str).map (fun e => rspWord (statusCode e) 0) ++
        [resultWord (decS r (lookupIn r A) str)]

/-- 43_operations.md R181: the unsigned round trip, for every value and every valid codec, whatever its alphabet. -/
def Obligations.UnsignedRoundTrip : Prop :=
  ∀ (n : Value) (s : State) (r : Nat) (A : Nat → Byte), HoldsCodec s r A →
    ∃ t, runInstrs (encodeu n (encU r A n).length ++ decodeu (encU r A n)) s = .next t ∧
      lastRsp t = some (rspWord (statusCode .ok) n)

/-- 43_operations.md R180: the signed round trip, for every 64-bit pattern, after LDLOWER of every radix 2..36 from any
state, and for every codec whose alphabet does not contain the sign character. -/
def Obligations.SignedRoundTrip : Prop :=
  (∀ (n r : Value) (s : State), 2 ≤ r.toNat → r.toNat ≤ 36 →
    ∃ t, runInstrs (.ldlower r :: (encodes n (encS r.toNat lowerChar n).length ++
        decodes (encS r.toNat lowerChar n))) s = .next t ∧
      lastRsp t = some (rspWord (statusCode .ok) n)) ∧
  (∀ (n : Value) (s : State) (r : Nat) (A : Nat → Byte), HoldsCodec s r A → (∀ i, i < r → A i ≠ 0x2D) →
    ∃ t, runInstrs (encodes n (encS r A n).length ++ decodes (encS r A n)) s = .next t ∧
      lastRsp t = some (rspWord (statusCode .ok) n))

/-- 10_state.md R45 (j) and 42_decode.md R150, both of which the spec marks as derived: while the characters of an
unsigned session are all digits, DACC is the exact value of the digits taken, and Overflow is latched exactly when that
value reaches 2^64. -/
def Obligations.AccumulatorHoldsTheExactValue : Prop :=
  ∀ (str : List Byte) (s : State) (r : Nat) (A : Nat → Byte) (a : Nat), HoldsCodec s r A →
    valueFrom r (lookupIn r A) 0 str = some a →
      ∃ t, runInstrs (.dbegu :: str.map .dchar) s = .next t ∧ t.dact = true ∧
        (a < 2 ^ 64 → t.derr = 0 ∧ t.dacc.toNat = a) ∧
        (2 ^ 64 ≤ a → t.derr = 5)

/-- 42_decode.md R154: once an error is latched every further DCHAR answers it and changes nothing, whatever the
characters, and DEND answers it and closes the session. -/
def Obligations.LatchedErrorIsFinal : Prop :=
  ∀ (str : List Byte) (s : State), s.dact = true → s.derr ≠ 0 →
    runInstrs (str.map .dchar) s = .next { s with rspOut := s.rspOut ++ List.replicate str.length (rspWord s.derr 0) } ∧
    runInstrs (str.map .dchar ++ [.dend]) s = .next
      { s with dact := false, rspOut := s.rspOut ++ List.replicate (str.length + 1) (rspWord s.derr 0) }

/-! ## Arithmetic -/

/-- 42_decode.md R158 (a): the unsigned decode accepts a string with the value `a` exactly when the string is not
empty, every character has a digit, and its value `a` is below 2^64. -/
def Obligations.UnsignedDecodeAcceptsExactly : Prop :=
  ∀ (r : Nat) (L : Byte → Option Nat) (str : List Byte) (a : Nat), 2 ≤ r →
    (decU r L str = .ok a ↔ str ≠ [] ∧ valueFrom r L 0 str = some a ∧ a < 2 ^ 64)

/-- 42_decode.md R150: the exact overflow test is the pre-check `a > (MAX - d) div r`, and the accumulator that passes
it holds the exact sum. -/
def Obligations.UnsignedOverflowIsThePrecheck : Prop :=
  ∀ (a : Value) (r : BitVec 9) (d : Byte), 2 ≤ r.toNat →
    (unsignedOverflow (mulAdd a r d) = true ↔ (2 ^ 64 - 1 - d.toNat) / r.toNat < a.toNat) ∧
    (unsignedOverflow (mulAdd a r d) = false →
      (BitVec.ofNat 64 (mulAdd a r d)).toNat = a.toNat * r.toNat + d.toNat)

/-- 42_decode.md R152: the overflow_detector fires exactly when the value is outside the signed range, equivalently
when `u > 2^63 - 1 + DNEG`, and otherwise the result pattern has exactly that value. -/
def Obligations.SignedOverflowIsTheSignedRange : Prop :=
  ∀ (u : Value) (g : Bool),
    (signedOverflow u g = true ↔ 2 ^ 63 - 1 + (if g then 1 else 0) < u.toNat) ∧
    (signedOverflow u g = true ↔
      ¬(-(2 ^ 63 : Int) ≤ (if g then -(u.toNat : Int) else u.toNat) ∧
        (if g then -(u.toNat : Int) else u.toNat) ≤ (2 ^ 63 : Int) - 1)) ∧
    (signedOverflow u g = false →
      s64 (if g then neg64 u else u) = if g then -(u.toNat : Int) else (u.toNat : Int))

/-- 41_encode.md R130: the digits of a value have that value, are as many as `ndig` says, and start with digit 0 only
for zero. -/
def Obligations.DigitsRepresentTheValue : Prop :=
  ∀ (r : Nat) (A : Nat → Byte) (v : Nat), 2 ≤ r → (∀ i j, i < r → j < r → A i = A j → i = j) → v < 2 ^ 64 →
    valueFrom r (lookupIn r A) 0 (digits r A v) = some v ∧
    (digits r A v).length = ndig v r ∧
    ((digits r A v)[0]? = some (A 0) → v = 0 ∧ digits r A v = [A 0])

/-- 41_encode.md R126: the lengths of the outputs are bounded by DU and DS, and so by 64 and 65. -/
def Obligations.OutputLengthsAreBounded : Prop :=
  ∀ (r : Nat) (A : Nat → Byte) (n : Value), 2 ≤ r → r ≤ 256 →
    1 ≤ (encU r A n).length ∧ (encU r A n).length ≤ longestUnsigned r ∧ longestUnsigned r ≤ 64 ∧
    1 ≤ (encS r A n).length ∧ (encS r A n).length ≤ max (longestUnsigned r) (longestSigned r) ∧
    longestSigned r ≤ 65

/-- 10_state.md R43, the facts read off its table: over all 255 radices, and the two counts. -/
def Obligations.LengthBoundsCompareAsTabled : Prop :=
  (∀ r, 2 ≤ r → r ≤ 256 →
    maxlen3 r = longestUnsigned r + 1 ∧ max (longestUnsigned r) (longestSigned r) ≤ maxlen3 r ∧
    longestUnsigned r ≤ maxlen r) ∧
  ((List.range' 2 255).filter fun r => decide (maxlen r < longestSigned r)).length = 98 ∧
  ((List.range' 2 255).filter fun r => decide (maxlen r ≠ maxlen3 r)).length = 148

/-- 70_reset_and_hazards.md R241: with the alphabet "0-" the signed encodings of 3 and -1 are the same string, which
decodes to -1. -/
def Obligations.SignInTheAlphabetCollides : Prop :=
  ∀ A : Nat → Byte, A 0 = 0x30 → A 1 = 0x2D →
    encS 2 A 3 = [0x2D, 0x2D] ∧ encS 2 A 0xFFFFFFFFFFFFFFFF = [0x2D, 0x2D] ∧
    decS 2 (lookupIn 2 A) [0x2D, 0x2D] = .ok 0xFFFFFFFFFFFFFFFF
end

