-- ==== Sys2Proof/Laws/Encoding.lean ====
section
/-! SUPPORT. The fields of an encoded command word and of a response word. -/

namespace Sys2Proof

/-- The upper field of a concatenation. -/
theorem extract_upper {a b : Nat} (x : BitVec a) (y : BitVec b) : (x ++ y).extractLsb' b a = x := by
  ext k hk
  simp [BitVec.getLsbD_append, BitVec.getLsbD_eq_getElem hk]

/-- A field inside the lower part of a concatenation. -/
theorem extract_lower {a b k n : Nat} (x : BitVec a) (y : BitVec b) (h : k + n ≤ b) :
    (x ++ y).extractLsb' k n = y.extractLsb' k n := by
  ext j hj
  have : k + j < b := by omega
  simp [BitVec.getLsbD_append, this]

@[simp] theorem opField_encode (i : Instr) : opField (encode i) = i.opcode := extract_upper _ _

@[simp] theorem valueField_encode (i : Instr) : valueField (encode i) = i.operand :=
  (extract_lower _ _ (by decide)).trans (by simp)

@[simp] theorem charField_encode (i : Instr) : charField (encode i) = i.operand.extractLsb' 0 8 :=
  extract_lower _ _ (by decide)

@[simp] theorem charZeroField_encode (i : Instr) : charZeroField (encode i) = i.operand.extractLsb' 8 56 :=
  extract_lower _ _ (by decide)

@[simp] theorem extractLsb'_zero_setWidth_char (c : Byte) : (c.setWidth 64).extractLsb' 0 8 = c := by
  ext k hk
  have : k < 64 := by omega
  simp [this, BitVec.getLsbD_eq_getElem hk]

@[simp] theorem extractLsb'_setWidth_char (c : Byte) : (c.setWidth 64).extractLsb' 8 56 = 0 := by
  ext k hk; simp

theorem append_extract {a b : Nat} (w : BitVec (a + b)) : w = w.extractLsb' b a ++ w.extractLsb' 0 b := by
  ext k hk
  simp only [BitVec.getElem_append, BitVec.getElem_extractLsb', Nat.zero_add]
  split
  · rw [BitVec.getLsbD_eq_getElem]
  · rw [BitVec.getLsbD_eq_getElem (by omega)]
    congr 1
    omega

/-- A word is its opcode field above its value field. -/
theorem word_eq_append (w : CmdWord) : w = opField w ++ valueField w := append_extract (a := 8) (b := 64) w

namespace Machine

@[simp] theorem rspStatus_rspWord (st : BitVec 4) (d : Value) : rspStatus (rspWord st d) = st := extract_upper _ _

@[simp] theorem rspData_rspWord (st : BitVec 4) (d : Value) : rspData (rspWord st d) = d :=
  (extract_lower _ _ (by decide)).trans (by simp)

/-- Two response words are equal exactly when their statuses and their data are. -/
@[simp] theorem rspWord_inj (st st' : BitVec 4) (d d' : Value) :
    rspWord st d = rspWord st' d' ↔ st = st' ∧ d = d' := by
  constructor
  · intro h
    exact ⟨by simpa using congrArg rspStatus h, by simpa using congrArg rspData h⟩
  · rintro ⟨rfl, rfl⟩; rfl

/-- Different statuses have different numbers. -/
@[simp] theorem statusCode_inj (e f : Status) : statusCode e = statusCode f ↔ e = f := by
  cases e <;> cases f <;> decide

end Machine

end Sys2Proof
end

