-- ==== Sys2Proof/Laws/Flags.lean ====
section
/-! SUPPORT. What each test and each number computation says, as a fact about numbers. -/

namespace Sys2Proof.Machine

theorem sizeIllegal_iff (acnt : BitVec 9) : sizeIllegal acnt = true ↔ acnt.toNat < 2 ∨ 256 < acnt.toNat := by
  simp [sizeIllegal, Config.radixMin, Config.radixMax]

theorem presetIllegal_iff (n : Value) : presetIllegal n = true ↔ n.toNat < 2 ∨ 36 < n.toNat := by
  simp [presetIllegal, Config.radixMin, Config.presetMax]

theorem unsignedOverflow_iff (t : Nat) : unsignedOverflow t = true ↔ 2 ^ 64 ≤ t := by
  simp [unsignedOverflow]

theorem takesSign_iff (g f : Bool) (c : Byte) : takesSign g f c = true ↔ g = true ∧ f = true ∧ c = 0x2D := by
  simp [takesSign, signChar, and_assoc]

/-- Below its saturation the count goes up by one. -/
theorem countNext_eq_add {acnt : BitVec 9} (h : acnt.toNat ≤ 256) : countNext acnt = acnt + 1 := by
  apply BitVec.eq_of_toNat_eq
  simp [countNext, Config.countMax, BitVec.toNat_add]
  omega

/-- At 256 and above the count becomes 257 and stays there. -/
theorem countNext_saturates {acnt : BitVec 9} (h : 256 ≤ acnt.toNat) : countNext acnt = 257 := by
  unfold countNext Config.countMax
  rw [show min (acnt.toNat + 1) 257 = 257 by omega]
  rfl

theorem countNext_toNat (acnt : BitVec 9) : (countNext acnt).toNat = min (acnt.toNat + 1) 257 := by
  unfold countNext Config.countMax
  rw [BitVec.toNat_ofNat]
  omega

/-- `neg64` is the negation of the pattern. -/
theorem neg64_eq_neg (p : Value) : neg64 p = -p := by
  apply BitVec.eq_of_toNat_eq
  simp [neg64, BitVec.toNat_neg]

theorem neg64_toNat (p : Value) : (neg64 p).toNat = (2 ^ 64 - p.toNat) % 2 ^ 64 := by
  simp [neg64]

/-- A pattern is negative exactly when it is at least `2^63`. -/
theorem isNegative_iff (n : Value) : isNegative n = true ↔ 2 ^ 63 ≤ n.toNat := by
  unfold isNegative
  rw [show n.getLsbD 63 = n.msb from rfl, BitVec.msb_eq_decide]
  simp

/-- The overflow_detector in terms of the unsigned value. -/
theorem signedOverflow_eq_true (u : Value) (g : Bool) :
    signedOverflow u g = true ↔ 2 ^ 63 ≤ u.toNat ∧ ¬(g = true ∧ u.toNat = 2 ^ 63) := by
  have h1 : u.getLsbD 63 = true ↔ 2 ^ 63 ≤ u.toNat := isNegative_iff u
  have h2 : (u == 0x8000000000000000#64) = true ↔ u.toNat = 2 ^ 63 := by simp [← BitVec.toNat_inj]
  unfold signedOverflow
  rw [Bool.and_eq_true, h1, Bool.not_eq_true', ← Bool.not_eq_true, Bool.and_eq_true, h2]

end Sys2Proof.Machine
end

