-- ==== Sys2Proof/Laws/Memory.lean ====
section
/-! SUPPORT. The laws of the memory operations: read after write, and that each keeps the canonical form. -/

namespace Sys2Proof.Machine

@[simp] theorem Memory.read_nil {w : Nat} (a : Nat) : Memory.read ([] : Memory w) a = none := rfl

theorem Memory.read_cons {w : Nat} (b : Nat) (v : BitVec w) (m : Memory w) (a : Nat) :
    Memory.read ((b, v) :: m) a = if b = a then some v else Memory.read m a := rfl

/-- Read after write, in one equation: the entry written reads as the value, every other as before. -/
theorem Memory.read_write {w : Nat} (m : Memory w) (a : Nat) (v : BitVec w) (x : Nat) :
    (m.write a v).read x = if x = a then some v else m.read x := by
  induction m with
  | nil => simp [Memory.write, Memory.read_cons, eq_comm]
  | cons e m ih =>
    obtain ⟨b, u⟩ := e
    simp only [Memory.write]
    split
    · simp only [Memory.read_cons, ih]
      grind
    · split <;> simp only [Memory.read_cons] <;> grind

@[simp] theorem Memory.read_write_same {w : Nat} (m : Memory w) (a : Nat) (v : BitVec w) :
    (m.write a v).read a = some v := by
  simp [Memory.read_write]

theorem Memory.read_write_other {w : Nat} (m : Memory w) {a x : Nat} (v : BitVec w) (h : x ≠ a) :
    (m.write a v).read x = m.read x := by
  simp [Memory.read_write, h]

theorem Memory.read_map_index {w : Nat} (l : List Nat) (v : BitVec w) (a : Nat) :
    Memory.read (l.map fun i => (i, v)) a = if a ∈ l then some v else none := by
  induction l with
  | nil => simp
  | cons b l ih =>
    simp only [List.map_cons, Memory.read_cons, ih, List.mem_cons, eq_comm (a := b)]
    split <;> simp [*]

/-- Every entry of a filled memory reads as the value. -/
theorem Memory.read_fill {w : Nat} (n : Nat) (v : BitVec w) (a : Nat) :
    (Memory.fill n v).read a = if a < n then some v else none := by
  simp [Memory.fill, Memory.read_map_index]

theorem Memory.wfFrom_mono {w : Nat} {depth lo lo' : Nat} {m : Memory w} (hl : lo' ≤ lo)
    (h : Memory.wfFrom depth lo m = true) : Memory.wfFrom depth lo' m = true := by
  cases m with
  | nil => rfl
  | cons e m =>
    simp only [Memory.wfFrom, Bool.and_eq_true, decide_eq_true_eq] at *
    exact ⟨⟨by omega, h.1.2⟩, h.2⟩

theorem Memory.wfFrom_write {w : Nat} {depth a : Nat} (v : BitVec w) (ha : a < depth) (m : Memory w) :
    ∀ lo, lo ≤ a → Memory.wfFrom depth lo m = true → Memory.wfFrom depth lo (m.write a v) = true := by
  induction m with
  | nil => intro lo hlo _; simp [Memory.write, Memory.wfFrom, hlo, ha]
  | cons e m ih =>
    intro lo hlo h
    simp only [Memory.wfFrom, Bool.and_eq_true, decide_eq_true_eq] at h
    simp only [Memory.write]
    split
    · simp only [Memory.wfFrom, Bool.and_eq_true, decide_eq_true_eq]
      exact ⟨h.1, ih _ (by omega) h.2⟩
    · split
      · simp only [Memory.wfFrom, Bool.and_eq_true, decide_eq_true_eq]
        exact ⟨⟨hlo, ha⟩, by simpa [*] using h.2⟩
      · simp only [Memory.wfFrom, Bool.and_eq_true, decide_eq_true_eq]
        exact ⟨⟨hlo, ha⟩, ⟨by omega, h.1.2⟩, h.2⟩

/-- A write inside the depth keeps the canonical form. -/
theorem Memory.wf_write {w : Nat} {depth a : Nat} {m : Memory w} (v : BitVec w) (ha : a < depth)
    (h : m.wf depth = true) : (m.write a v).wf depth = true :=
  Memory.wfFrom_write v ha m 0 (Nat.zero_le a) h

theorem Memory.wfFrom_range' {w : Nat} (depth : Nat) (v : BitVec w) :
    ∀ n lo, lo + n ≤ depth → Memory.wfFrom depth lo ((List.range' lo n).map fun i => (i, v)) = true := by
  intro n
  induction n with
  | zero => intro lo _; rfl
  | succ n ih =>
    intro lo h
    simp only [List.range'_succ, List.map_cons, Memory.wfFrom, Bool.and_eq_true, decide_eq_true_eq]
    exact ⟨⟨le_refl _, by omega⟩, ih _ (by omega)⟩

/-- A filled memory is in canonical form. -/
theorem Memory.wf_fill {w : Nat} (n : Nat) (v : BitVec w) : (Memory.fill n v).wf n = true := by
  unfold Memory.fill Memory.wf
  rw [List.range_eq_range']
  exact Memory.wfFrom_range' n v n 0 (by omega)

@[simp] theorem Memory.wf_nil {w : Nat} (depth : Nat) : Memory.wf depth ([] : Memory w) = true := rfl

/-- What a command's read answers: the entry's value exactly when the index is in range and the entry holds it. -/
theorem readEntry_eq_ok {w : Nat} (name : MemName) (depth : Nat) (m : Memory w) (i : Nat) (v : BitVec w) :
    readEntry name depth m i = .ok v ↔ i < depth ∧ m.read i = some v := by
  unfold readEntry
  split
  · split <;> simp_all
  · simp_all

end Sys2Proof.Machine
end

