-- ==== Sys2Proof/Laws/State.lean ====
section
/-! SUPPORT. What each named update of the state leaves in each field, so that no proof unfolds a record update. -/

namespace Sys2Proof.Machine

@[simp] theorem respond_valid (st : BitVec 4) (d : Value) (s : State) : (respond st d s).valid = s.valid := rfl
@[simp] theorem respond_radix (st : BitVec 4) (d : Value) (s : State) : (respond st d s).radix = s.radix := rfl
@[simp] theorem respond_build (st : BitVec 4) (d : Value) (s : State) : (respond st d s).build = s.build := rfl
@[simp] theorem respond_acnt (st : BitVec 4) (d : Value) (s : State) : (respond st d s).acnt = s.acnt := rfl
@[simp] theorem respond_adup (st : BitVec 4) (d : Value) (s : State) : (respond st d s).adup = s.adup := rfl
@[simp] theorem respond_alpha (st : BitVec 4) (d : Value) (s : State) : (respond st d s).alpha = s.alpha := rfl
@[simp] theorem respond_rlutV (st : BitVec 4) (d : Value) (s : State) : (respond st d s).rlutV = s.rlutV := rfl
@[simp] theorem respond_rlutD (st : BitVec 4) (d : Value) (s : State) : (respond st d s).rlutD = s.rlutD := rfl
@[simp] theorem respond_obuf (st : BitVec 4) (d : Value) (s : State) : (respond st d s).obuf = s.obuf := rfl
@[simp] theorem respond_opos (st : BitVec 4) (d : Value) (s : State) : (respond st d s).opos = s.opos := rfl
@[simp] theorem respond_dact (st : BitVec 4) (d : Value) (s : State) : (respond st d s).dact = s.dact := rfl
@[simp] theorem respond_dsgn (st : BitVec 4) (d : Value) (s : State) : (respond st d s).dsgn = s.dsgn := rfl
@[simp] theorem respond_dfirst (st : BitVec 4) (d : Value) (s : State) : (respond st d s).dfirst = s.dfirst := rfl
@[simp] theorem respond_dneg (st : BitVec 4) (d : Value) (s : State) : (respond st d s).dneg = s.dneg := rfl
@[simp] theorem respond_dany (st : BitVec 4) (d : Value) (s : State) : (respond st d s).dany = s.dany := rfl
@[simp] theorem respond_dacc (st : BitVec 4) (d : Value) (s : State) : (respond st d s).dacc = s.dacc := rfl
@[simp] theorem respond_derr (st : BitVec 4) (d : Value) (s : State) : (respond st d s).derr = s.derr := rfl
@[simp] theorem respond_cmdIn (st : BitVec 4) (d : Value) (s : State) : (respond st d s).cmdIn = s.cmdIn := rfl
@[simp] theorem respond_rspOut (st : BitVec 4) (d : Value) (s : State) : (respond st d s).rspOut = s.rspOut ++ [rspWord st d] := rfl

@[simp] theorem respondOk_valid (d : Value) (s : State) : (respondOk d s).valid = s.valid := rfl
@[simp] theorem respondOk_radix (d : Value) (s : State) : (respondOk d s).radix = s.radix := rfl
@[simp] theorem respondOk_build (d : Value) (s : State) : (respondOk d s).build = s.build := rfl
@[simp] theorem respondOk_acnt (d : Value) (s : State) : (respondOk d s).acnt = s.acnt := rfl
@[simp] theorem respondOk_adup (d : Value) (s : State) : (respondOk d s).adup = s.adup := rfl
@[simp] theorem respondOk_alpha (d : Value) (s : State) : (respondOk d s).alpha = s.alpha := rfl
@[simp] theorem respondOk_rlutV (d : Value) (s : State) : (respondOk d s).rlutV = s.rlutV := rfl
@[simp] theorem respondOk_rlutD (d : Value) (s : State) : (respondOk d s).rlutD = s.rlutD := rfl
@[simp] theorem respondOk_obuf (d : Value) (s : State) : (respondOk d s).obuf = s.obuf := rfl
@[simp] theorem respondOk_opos (d : Value) (s : State) : (respondOk d s).opos = s.opos := rfl
@[simp] theorem respondOk_dact (d : Value) (s : State) : (respondOk d s).dact = s.dact := rfl
@[simp] theorem respondOk_dsgn (d : Value) (s : State) : (respondOk d s).dsgn = s.dsgn := rfl
@[simp] theorem respondOk_dfirst (d : Value) (s : State) : (respondOk d s).dfirst = s.dfirst := rfl
@[simp] theorem respondOk_dneg (d : Value) (s : State) : (respondOk d s).dneg = s.dneg := rfl
@[simp] theorem respondOk_dany (d : Value) (s : State) : (respondOk d s).dany = s.dany := rfl
@[simp] theorem respondOk_dacc (d : Value) (s : State) : (respondOk d s).dacc = s.dacc := rfl
@[simp] theorem respondOk_derr (d : Value) (s : State) : (respondOk d s).derr = s.derr := rfl
@[simp] theorem respondOk_cmdIn (d : Value) (s : State) : (respondOk d s).cmdIn = s.cmdIn := rfl
@[simp] theorem respondOk_rspOut (d : Value) (s : State) : (respondOk d s).rspOut = s.rspOut ++ [rspWord (statusCode .ok) d] := rfl

@[simp] theorem raise_valid (e : Status) (s : State) : (raise e s).valid = s.valid := rfl
@[simp] theorem raise_radix (e : Status) (s : State) : (raise e s).radix = s.radix := rfl
@[simp] theorem raise_build (e : Status) (s : State) : (raise e s).build = s.build := rfl
@[simp] theorem raise_acnt (e : Status) (s : State) : (raise e s).acnt = s.acnt := rfl
@[simp] theorem raise_adup (e : Status) (s : State) : (raise e s).adup = s.adup := rfl
@[simp] theorem raise_alpha (e : Status) (s : State) : (raise e s).alpha = s.alpha := rfl
@[simp] theorem raise_rlutV (e : Status) (s : State) : (raise e s).rlutV = s.rlutV := rfl
@[simp] theorem raise_rlutD (e : Status) (s : State) : (raise e s).rlutD = s.rlutD := rfl
@[simp] theorem raise_obuf (e : Status) (s : State) : (raise e s).obuf = s.obuf := rfl
@[simp] theorem raise_opos (e : Status) (s : State) : (raise e s).opos = s.opos := rfl
@[simp] theorem raise_dact (e : Status) (s : State) : (raise e s).dact = s.dact := rfl
@[simp] theorem raise_dsgn (e : Status) (s : State) : (raise e s).dsgn = s.dsgn := rfl
@[simp] theorem raise_dfirst (e : Status) (s : State) : (raise e s).dfirst = s.dfirst := rfl
@[simp] theorem raise_dneg (e : Status) (s : State) : (raise e s).dneg = s.dneg := rfl
@[simp] theorem raise_dany (e : Status) (s : State) : (raise e s).dany = s.dany := rfl
@[simp] theorem raise_dacc (e : Status) (s : State) : (raise e s).dacc = s.dacc := rfl
@[simp] theorem raise_derr (e : Status) (s : State) : (raise e s).derr = s.derr := rfl
@[simp] theorem raise_cmdIn (e : Status) (s : State) : (raise e s).cmdIn = s.cmdIn := rfl
@[simp] theorem raise_rspOut (e : Status) (s : State) : (raise e s).rspOut = s.rspOut ++ [rspWord (statusCode e) 0] := rfl

@[simp] theorem clearCodec_valid (s : State) : (clearCodec s).valid = false := rfl
@[simp] theorem clearCodec_radix (s : State) : (clearCodec s).radix = 0 := rfl
@[simp] theorem clearCodec_build (s : State) : (clearCodec s).build = false := rfl
@[simp] theorem clearCodec_acnt (s : State) : (clearCodec s).acnt = 0 := rfl
@[simp] theorem clearCodec_adup (s : State) : (clearCodec s).adup = false := rfl
@[simp] theorem clearCodec_alpha (s : State) : (clearCodec s).alpha = s.alpha := rfl
@[simp] theorem clearCodec_rlutV (s : State) : (clearCodec s).rlutV = Memory.fill Config.tableDepth 0 := rfl
@[simp] theorem clearCodec_rlutD (s : State) : (clearCodec s).rlutD = s.rlutD := rfl
@[simp] theorem clearCodec_obuf (s : State) : (clearCodec s).obuf = s.obuf := rfl
@[simp] theorem clearCodec_opos (s : State) : (clearCodec s).opos = s.opos := rfl
@[simp] theorem clearCodec_dact (s : State) : (clearCodec s).dact = false := rfl
@[simp] theorem clearCodec_dsgn (s : State) : (clearCodec s).dsgn = s.dsgn := rfl
@[simp] theorem clearCodec_dfirst (s : State) : (clearCodec s).dfirst = s.dfirst := rfl
@[simp] theorem clearCodec_dneg (s : State) : (clearCodec s).dneg = s.dneg := rfl
@[simp] theorem clearCodec_dany (s : State) : (clearCodec s).dany = s.dany := rfl
@[simp] theorem clearCodec_dacc (s : State) : (clearCodec s).dacc = s.dacc := rfl
@[simp] theorem clearCodec_derr (s : State) : (clearCodec s).derr = s.derr := rfl
@[simp] theorem clearCodec_cmdIn (s : State) : (clearCodec s).cmdIn = s.cmdIn := rfl
@[simp] theorem clearCodec_rspOut (s : State) : (clearCodec s).rspOut = s.rspOut := rfl

@[simp] theorem setDigit_valid (c : Byte) (i : Nat) (s : State) : (setDigit c i s).valid = s.valid := rfl
@[simp] theorem setDigit_radix (c : Byte) (i : Nat) (s : State) : (setDigit c i s).radix = s.radix := rfl
@[simp] theorem setDigit_build (c : Byte) (i : Nat) (s : State) : (setDigit c i s).build = s.build := rfl
@[simp] theorem setDigit_acnt (c : Byte) (i : Nat) (s : State) : (setDigit c i s).acnt = s.acnt := rfl
@[simp] theorem setDigit_adup (c : Byte) (i : Nat) (s : State) : (setDigit c i s).adup = s.adup := rfl
@[simp] theorem setDigit_alpha (c : Byte) (i : Nat) (s : State) : (setDigit c i s).alpha = s.alpha.write i c := rfl
@[simp] theorem setDigit_rlutV (c : Byte) (i : Nat) (s : State) : (setDigit c i s).rlutV = s.rlutV.write c.toNat 1 := rfl
@[simp] theorem setDigit_rlutD (c : Byte) (i : Nat) (s : State) : (setDigit c i s).rlutD = s.rlutD.write c.toNat (BitVec.ofNat 8 i) := rfl
@[simp] theorem setDigit_obuf (c : Byte) (i : Nat) (s : State) : (setDigit c i s).obuf = s.obuf := rfl
@[simp] theorem setDigit_opos (c : Byte) (i : Nat) (s : State) : (setDigit c i s).opos = s.opos := rfl
@[simp] theorem setDigit_dact (c : Byte) (i : Nat) (s : State) : (setDigit c i s).dact = s.dact := rfl
@[simp] theorem setDigit_dsgn (c : Byte) (i : Nat) (s : State) : (setDigit c i s).dsgn = s.dsgn := rfl
@[simp] theorem setDigit_dfirst (c : Byte) (i : Nat) (s : State) : (setDigit c i s).dfirst = s.dfirst := rfl
@[simp] theorem setDigit_dneg (c : Byte) (i : Nat) (s : State) : (setDigit c i s).dneg = s.dneg := rfl
@[simp] theorem setDigit_dany (c : Byte) (i : Nat) (s : State) : (setDigit c i s).dany = s.dany := rfl
@[simp] theorem setDigit_dacc (c : Byte) (i : Nat) (s : State) : (setDigit c i s).dacc = s.dacc := rfl
@[simp] theorem setDigit_derr (c : Byte) (i : Nat) (s : State) : (setDigit c i s).derr = s.derr := rfl
@[simp] theorem setDigit_cmdIn (c : Byte) (i : Nat) (s : State) : (setDigit c i s).cmdIn = s.cmdIn := rfl
@[simp] theorem setDigit_rspOut (c : Byte) (i : Nat) (s : State) : (setDigit c i s).rspOut = s.rspOut := rfl

@[simp] theorem openSession_valid (g : Bool) (s : State) : (openSession g s).valid = s.valid := rfl
@[simp] theorem openSession_radix (g : Bool) (s : State) : (openSession g s).radix = s.radix := rfl
@[simp] theorem openSession_build (g : Bool) (s : State) : (openSession g s).build = s.build := rfl
@[simp] theorem openSession_acnt (g : Bool) (s : State) : (openSession g s).acnt = s.acnt := rfl
@[simp] theorem openSession_adup (g : Bool) (s : State) : (openSession g s).adup = s.adup := rfl
@[simp] theorem openSession_alpha (g : Bool) (s : State) : (openSession g s).alpha = s.alpha := rfl
@[simp] theorem openSession_rlutV (g : Bool) (s : State) : (openSession g s).rlutV = s.rlutV := rfl
@[simp] theorem openSession_rlutD (g : Bool) (s : State) : (openSession g s).rlutD = s.rlutD := rfl
@[simp] theorem openSession_obuf (g : Bool) (s : State) : (openSession g s).obuf = s.obuf := rfl
@[simp] theorem openSession_opos (g : Bool) (s : State) : (openSession g s).opos = s.opos := rfl
@[simp] theorem openSession_dact (g : Bool) (s : State) : (openSession g s).dact = true := rfl
@[simp] theorem openSession_dsgn (g : Bool) (s : State) : (openSession g s).dsgn = g := rfl
@[simp] theorem openSession_dfirst (g : Bool) (s : State) : (openSession g s).dfirst = true := rfl
@[simp] theorem openSession_dneg (g : Bool) (s : State) : (openSession g s).dneg = false := rfl
@[simp] theorem openSession_dany (g : Bool) (s : State) : (openSession g s).dany = false := rfl
@[simp] theorem openSession_dacc (g : Bool) (s : State) : (openSession g s).dacc = 0 := rfl
@[simp] theorem openSession_derr (g : Bool) (s : State) : (openSession g s).derr = 0 := rfl
@[simp] theorem openSession_cmdIn (g : Bool) (s : State) : (openSession g s).cmdIn = s.cmdIn := rfl
@[simp] theorem openSession_rspOut (g : Bool) (s : State) : (openSession g s).rspOut = s.rspOut := rfl

@[simp] theorem latchError_valid (e : Status) (s : State) : (latchError e s).valid = s.valid := rfl
@[simp] theorem latchError_radix (e : Status) (s : State) : (latchError e s).radix = s.radix := rfl
@[simp] theorem latchError_build (e : Status) (s : State) : (latchError e s).build = s.build := rfl
@[simp] theorem latchError_acnt (e : Status) (s : State) : (latchError e s).acnt = s.acnt := rfl
@[simp] theorem latchError_adup (e : Status) (s : State) : (latchError e s).adup = s.adup := rfl
@[simp] theorem latchError_alpha (e : Status) (s : State) : (latchError e s).alpha = s.alpha := rfl
@[simp] theorem latchError_rlutV (e : Status) (s : State) : (latchError e s).rlutV = s.rlutV := rfl
@[simp] theorem latchError_rlutD (e : Status) (s : State) : (latchError e s).rlutD = s.rlutD := rfl
@[simp] theorem latchError_obuf (e : Status) (s : State) : (latchError e s).obuf = s.obuf := rfl
@[simp] theorem latchError_opos (e : Status) (s : State) : (latchError e s).opos = s.opos := rfl
@[simp] theorem latchError_dact (e : Status) (s : State) : (latchError e s).dact = s.dact := rfl
@[simp] theorem latchError_dsgn (e : Status) (s : State) : (latchError e s).dsgn = s.dsgn := rfl
@[simp] theorem latchError_dfirst (e : Status) (s : State) : (latchError e s).dfirst = s.dfirst := rfl
@[simp] theorem latchError_dneg (e : Status) (s : State) : (latchError e s).dneg = s.dneg := rfl
@[simp] theorem latchError_dany (e : Status) (s : State) : (latchError e s).dany = s.dany := rfl
@[simp] theorem latchError_dacc (e : Status) (s : State) : (latchError e s).dacc = s.dacc := rfl
@[simp] theorem latchError_derr (e : Status) (s : State) : (latchError e s).derr = statusCode e := rfl
@[simp] theorem latchError_cmdIn (e : Status) (s : State) : (latchError e s).cmdIn = s.cmdIn := rfl
@[simp] theorem latchError_rspOut (e : Status) (s : State) : (latchError e s).rspOut = s.rspOut ++ [rspWord (statusCode e) 0] := rfl

@[simp] theorem respondLength_valid (s : State) : (respondLength s).valid = s.valid := rfl
@[simp] theorem respondLength_radix (s : State) : (respondLength s).radix = s.radix := rfl
@[simp] theorem respondLength_build (s : State) : (respondLength s).build = s.build := rfl
@[simp] theorem respondLength_acnt (s : State) : (respondLength s).acnt = s.acnt := rfl
@[simp] theorem respondLength_adup (s : State) : (respondLength s).adup = s.adup := rfl
@[simp] theorem respondLength_alpha (s : State) : (respondLength s).alpha = s.alpha := rfl
@[simp] theorem respondLength_rlutV (s : State) : (respondLength s).rlutV = s.rlutV := rfl
@[simp] theorem respondLength_rlutD (s : State) : (respondLength s).rlutD = s.rlutD := rfl
@[simp] theorem respondLength_obuf (s : State) : (respondLength s).obuf = s.obuf := rfl
@[simp] theorem respondLength_opos (s : State) : (respondLength s).opos = s.opos := rfl
@[simp] theorem respondLength_dact (s : State) : (respondLength s).dact = s.dact := rfl
@[simp] theorem respondLength_dsgn (s : State) : (respondLength s).dsgn = s.dsgn := rfl
@[simp] theorem respondLength_dfirst (s : State) : (respondLength s).dfirst = s.dfirst := rfl
@[simp] theorem respondLength_dneg (s : State) : (respondLength s).dneg = s.dneg := rfl
@[simp] theorem respondLength_dany (s : State) : (respondLength s).dany = s.dany := rfl
@[simp] theorem respondLength_dacc (s : State) : (respondLength s).dacc = s.dacc := rfl
@[simp] theorem respondLength_derr (s : State) : (respondLength s).derr = s.derr := rfl
@[simp] theorem respondLength_cmdIn (s : State) : (respondLength s).cmdIn = s.cmdIn := rfl
@[simp] theorem respondLength_rspOut (s : State) : (respondLength s).rspOut = s.rspOut ++ [rspWord (statusCode .ok) (BitVec.ofNat 64 (outLength s))] := rfl

end Sys2Proof.Machine
end

