-- ==== Sys2Proof/Laws/Ops.lean ====
section
/-! SUPPORT. One lemma for each shared operation that says once everything it does; later proofs cite these and do not
unfold the operation. -/

namespace Sys2Proof.Machine

/-! ## The tables -/

/-- Everything the loop of `load_preset` does when it offers distinct characters (40_alphabet.md R108). -/
theorem setDigits_spec (cs : List Byte) : ∀ (i : Nat) (s : State), cs.Nodup →
    setDigits cs i s = { s with
      alpha := (setDigits cs i s).alpha
      rlutV := (setDigits cs i s).rlutV
      rlutD := (setDigits cs i s).rlutD } ∧
    (∀ j, j < cs.length → (setDigits cs i s).alpha.read (i + j) = cs[j]?) ∧
    (∀ a, a < i ∨ i + cs.length ≤ a → (setDigits cs i s).alpha.read a = s.alpha.read a) ∧
    (∀ b : Byte, b ∈ cs → (setDigits cs i s).rlutV.read b.toNat = some 1) ∧
    (∀ j (h : j < cs.length), (setDigits cs i s).rlutD.read cs[j].toNat = some (BitVec.ofNat 8 (i + j))) ∧
    (∀ b : Byte, b ∉ cs → (setDigits cs i s).rlutV.read b.toNat = s.rlutV.read b.toNat ∧
      (setDigits cs i s).rlutD.read b.toNat = s.rlutD.read b.toNat) := by
  induction cs with
  | nil => intro i s _; simp [setDigits]
  | cons c cs ih =>
    intro i s hnd
    obtain ⟨hc, hnd⟩ := List.nodup_cons.mp hnd
    obtain ⟨h1, h2, h3, h4, h5, h6⟩ := ih (i + 1) (setDigit c i s) hnd
    have hne : ∀ b : Byte, b ≠ c → b.toNat ≠ c.toNat := fun b hb h => hb (BitVec.eq_of_toNat_eq h)
    simp only [setDigits]
    refine ⟨?_, ?_, ?_, ?_, ?_, ?_⟩
    · rw [h1]; rfl
    · intro j hj
      cases j with
      | zero =>
        rw [h3 (i + 0) (by omega)]
        simp
      | succ j =>
        have := h2 j (by simpa using hj)
        rw [show i + (j + 1) = i + 1 + j by omega, this]
        simp
    · intro a ha
      have : (c :: cs).length = cs.length + 1 := rfl
      rw [h3 a (by omega)]
      simp [Memory.read_write_other _ _ (show a ≠ i by omega)]
    · intro b hb
      by_cases hbc : b = c
      · subst hbc
        rw [(h6 b hc).1]; simp
      · exact h4 b (by simpa [hbc] using hb)
    · intro j hj
      cases j with
      | zero =>
        simp only [List.getElem_cons_zero]
        rw [(h6 c hc).2]; simp
      | succ j =>
        have := h5 j (by simpa using hj)
        simp only [List.getElem_cons_succ]
        rw [this, show i + 1 + j = i + (j + 1) by omega]
    · intro b hb
      simp only [List.mem_cons, not_or] at hb
      rw [(h6 b hb.2).1, (h6 b hb.2).2]
      simp [Memory.read_write_other _ _ (hne b hb.1)]

/-- The loop of `load_preset` keeps the memories in canonical form. -/
theorem setDigits_wf (cs : List Byte) : ∀ (i : Nat) (s : State), i + cs.length ≤ 256 →
    s.alpha.wf 256 = true → s.rlutV.wf 256 = true → s.rlutD.wf 256 = true →
    (setDigits cs i s).alpha.wf 256 = true ∧ (setDigits cs i s).rlutV.wf 256 = true ∧
    (setDigits cs i s).rlutD.wf 256 = true := by
  induction cs with
  | nil => intro i s _ h1 h2 h3; exact ⟨h1, h2, h3⟩
  | cons c cs ih =>
    intro i s hi h1 h2 h3
    have : (c :: cs).length = cs.length + 1 := rfl
    exact ih (i + 1) (setDigit c i s) (by omega) (Memory.wf_write _ (by omega) h1)
      (Memory.wf_write _ c.isLt h2) (Memory.wf_write _ c.isLt h3)

/-- After `clear_codec` every valid bit is 0 (40_alphabet.md R101). -/
theorem clearCodec_cleared (b : Byte) (s : State) : (clearCodec s).rlutV.read b.toNat = some 0 := by
  rw [clearCodec_rlutV, Memory.read_fill, if_pos b.isLt]

/-- Everything `clear_codec` and `load_preset` do with the first `n` characters of a reference of distinct characters,
given by their formula `char` (40_alphabet.md R101, R108). -/
theorem loadPreset_spec (ref : List Byte) (char : Nat → Byte) (n : Nat) (s : State) (hn : n ≤ ref.length)
    (hnd : ref.Nodup) (hch : ∀ i (h : i < ref.length), ref[i] = char i) :
    PresetLoaded char n s (respondOk 0 (loadPreset ref n (clearCodec s))) := by
  have hlen : (ref.take n).length = n := by simp [hn]
  obtain ⟨h1, h2, h3, h4, h5, h6⟩ :=
    setDigits_spec (ref.take n) 0 (clearCodec s) (hnd.sublist (List.take_sublist _ _))
  have hget : ∀ i, i < n → (ref.take n)[i]? = some (char i) := by
    intro i hi
    rw [List.getElem?_take_of_lt hi, List.getElem?_eq_getElem (by omega), hch]
  have hmem : ∀ b, b ∈ ref.take n ↔ ∃ i, i < n ∧ char i = b := by
    intro b
    constructor
    · intro hb
      obtain ⟨i, hi, he⟩ := List.mem_iff_getElem.mp hb
      refine ⟨i, by omega, ?_⟩
      have := hget i (by omega)
      rw [List.getElem?_eq_getElem hi, he] at this
      exact (Option.some.inj this).symm
    · rintro ⟨i, hi, rfl⟩
      exact List.mem_of_getElem? (hget i hi)
  refine ⟨?_, ?_, ?_, ?_, ?_⟩
  · simp only [loadPreset, respondOk, respond, responded]
    rw [h1]; rfl
  · intro i hi
    have := h2 i (by omega)
    simp only [loadPreset, respondOk_alpha]
    rw [Nat.zero_add] at this
    rw [this, hget i hi]
  · intro i hi
    simp only [loadPreset, respondOk_alpha]
    rw [h3 i (by omega)]; rfl
  · intro i hi
    have h5' := h5 i (by omega)
    have : (ref.take n)[i]'(by omega) = char i := by
      have := hget i hi
      rw [List.getElem?_eq_getElem (by omega)] at this
      exact Option.some.inj this
    rw [this] at h5'
    exact ⟨h4 _ ((hmem _).mpr ⟨i, hi, rfl⟩), by simpa [loadPreset] using h5'⟩
  · intro b hb
    have := h6 b (by rw [hmem]; rintro ⟨i, hi, rfl⟩; exact hb i hi rfl)
    exact ⟨by simpa [loadPreset] using this.1.trans (clearCodec_cleared b s), this.2⟩

/-- The three references are the ranges of 10_state.md R37, of distinct characters. -/
theorem lowerRef_spec : lowerRef.length = 36 ∧ lowerRef.Nodup ∧
    ∀ i (h : i < lowerRef.length), lowerRef[i] = lowerChar i := by decide

theorem upperRef_spec : upperRef.length = 36 ∧ upperRef.Nodup ∧
    ∀ i (h : i < upperRef.length), upperRef[i] = upperChar i := by decide

theorem b64Ref_spec : b64Ref.length = 64 ∧ b64Ref.Nodup ∧
    ∀ i (h : i < b64Ref.length), b64Ref[i] = b64Char i := by decide

/-! ## The output buffer -/

/-- Everything `pushOut` does: it answers exactly when there is room, and then writes the one entry before OPOS. -/
theorem pushOut_spec (c : Byte) (s : State) (h : s.opos.toNat ≠ 0) :
    ∃ t, pushOut c s = .ok t ∧ t = { s with obuf := t.obuf, opos := t.opos } ∧
      t.opos.toNat + 1 = s.opos.toNat ∧ t.obuf = s.obuf.write t.opos.toNat c := by
  have h0 : s.opos ≠ 0 := fun h' => h (by simp [h'])
  refine ⟨{ s with opos := s.opos - 1, obuf := s.obuf.write (s.opos - 1).toNat c }, ?_, rfl, ?_, rfl⟩
  · unfold pushOut; rw [if_neg h0]
  · have := s.opos.isLt
    show (s.opos - 1).toNat + 1 = _
    rw [BitVec.toNat_sub]
    have h1 : (1 : BitVec 7).toNat = 1 := rfl
    omega

/-- A digit function of enough fuel does not depend on the fuel. -/
theorem digitsFuel_stable (r : Nat) (A : Nat → Byte) (hr : 2 ≤ r) :
    ∀ k v, v < 2 ^ (k + 1) → digitsFuel r A (k + 1) v = digitsFuel r A k v := by
  intro k
  induction k with
  | zero =>
    intro v hv
    have : v < r := by omega
    simp [digitsFuel, this, Nat.mod_eq_of_lt this]
  | succ k ih =>
    intro v hv
    have hdiv : v / r < 2 ^ (k + 1) := by
      calc v / r ≤ v / 2 := Nat.div_le_div_left hr (by omega)
        _ < 2 ^ (k + 1) := by omega
    rw [digitsFuel.eq_2 r A v (k + 1), digitsFuel.eq_2 r A v k, ih _ hdiv]

/-- The equations of `digits` (41_encode.md R130). -/
theorem digits_eq (r : Nat) (A : Nat → Byte) (hr : 2 ≤ r) (v : Nat) (hv : v < 2 ^ 64) :
    digits r A v = if v < r then [A v] else digits r A (v / r) ++ [A (v % r)] := by
  have hdiv : v / r < 2 ^ 63 := by
    calc v / r ≤ v / 2 := Nat.div_le_div_left hr (by omega)
      _ < 2 ^ 63 := by omega
  unfold digits
  rw [← digitsFuel_stable r A hr 62 (v / r) hdiv |>.symm]
  exact digitsFuel.eq_2 r A v 62

theorem digitsFuel_length_pos (r : Nat) (A : Nat → Byte) (k v : Nat) : 1 ≤ (digitsFuel r A k v).length := by
  cases k with
  | zero => simp [digitsFuel]
  | succ k => unfold digitsFuel; split <;> simp

theorem digitsFuel_length_le (r : Nat) (A : Nat → Byte) : ∀ k v, (digitsFuel r A k v).length ≤ k + 1 := by
  intro k
  induction k with
  | zero => intro v; simp [digitsFuel]
  | succ k ih =>
    intro v
    unfold digitsFuel
    split
    · simp
    · have := ih (v / r)
      simp; omega

/-- What an encode leaves in the buffer, apart from its response: the string at OPOS, the rest as it was. -/
structure Emitted (str : List Byte) (s t : State) : Prop where
  rest : t = { s with obuf := t.obuf, opos := t.opos }
  position : t.opos.toNat + str.length = s.opos.toNat
  chars : ∀ j, j < str.length → t.obuf.read (t.opos.toNat + j) = str[j]?
  others : ∀ a, a < t.opos.toNat ∨ s.opos.toNat ≤ a → t.obuf.read a = s.obuf.read a
  wf : s.obuf.wf 65 = true → s.opos.toNat ≤ 65 → t.obuf.wf 65 = true

/-- One character more in front. -/
theorem pushOut_emitted (c : Byte) (str : List Byte) (s0 s : State) (he : Emitted str s0 s) (h : s.opos.toNat ≠ 0) :
    ∃ t, pushOut c s = .ok t ∧ Emitted (c :: str) s0 t := by
  obtain ⟨t, ht, hrest, hpos, hbuf⟩ := pushOut_spec c s h
  refine ⟨t, ht, ?_, ?_, ?_, ?_, ?_⟩
  · rw [hrest, he.rest]
  · have := he.position; simp; omega
  · intro j hj
    rw [hbuf, Memory.read_write]
    cases j with
    | zero => simp
    | succ j =>
      have hj' : j < str.length := by simpa using hj
      have := he.chars j hj'
      simp only [List.getElem?_cons_succ]
      rw [← this, show t.opos.toNat + (j + 1) = s.opos.toNat + j by omega, if_neg (by omega)]
  · intro a ha
    have hp := he.position
    rw [hbuf, Memory.read_write, if_neg (by omega)]
    exact he.others a (by omega)
  · intro hw hle
    have hp := he.position
    rw [hbuf]
    exact Memory.wf_write _ (by omega) (he.wf hw hle)

/-- What follows a string already stored: storing `pre` in front of it stores `pre ++ str`. -/
theorem Emitted.append {pre str : List Byte} {s0 s t : State} (h1 : Emitted str s0 s) (h2 : Emitted pre s t) :
    Emitted (pre ++ str) s0 t := by
  have hp1 := h1.position
  have hp2 := h2.position
  refine ⟨?_, ?_, ?_, ?_, ?_⟩
  · rw [h2.rest, h1.rest]
  · simp; omega
  · intro j hj
    by_cases hlt : j < pre.length
    · rw [h2.chars j hlt, List.getElem?_append_left hlt]
    · have hj' : j - pre.length < str.length := by simp at hj; omega
      rw [h2.others _ (by omega), List.getElem?_append_right (by omega),
        show t.opos.toNat + j = s.opos.toNat + (j - pre.length) by omega]
      exact h1.chars _ hj'
  · intro a ha
    rw [h2.others a (by omega)]
    exact h1.others a (by omega)
  · intro hw hle
    exact h2.wf (h1.wf hw hle) (by omega)

theorem Emitted.refl (s : State) : Emitted [] s s :=
  ⟨rfl, by simp, by simp, by simp, fun h _ => h⟩

/-- Everything the loop of `emit_digits` does (41_encode.md R120, R130). -/
theorem emitLoop_spec (r : Nat) (A : Nat → Byte) (hr : 2 ≤ r) (hr' : r ≤ 256) :
    ∀ k fuel en (s : State), s.radix.toNat = r → (∀ i, i < r → s.alpha.read i = some (A i)) →
      en < 2 ^ (k + 1) → k + 1 ≤ fuel → k + 1 ≤ s.opos.toNat →
      ∃ t, emitLoop fuel en s = .ok t ∧ Emitted (digitsFuel r A k en) s t := by
  intro k
  induction k with
  | zero =>
    intro fuel en s hrad hA hen hf hop
    obtain ⟨f, rfl⟩ : ∃ f, fuel = f + 1 := ⟨fuel - 1, by omega⟩
    have hlt : en < r := by omega
    have hread : readEntry .alpha Config.tableDepth s.alpha (en % s.radix.toNat) = .ok (A (en % r)) := by
      rw [readEntry_eq_ok, hrad]
      exact ⟨lt_of_lt_of_le (Nat.mod_lt _ (by omega)) hr', hA _ (Nat.mod_lt _ (by omega))⟩
    obtain ⟨t, ht, hem⟩ := pushOut_emitted (A (en % r)) [] s s (Emitted.refl s) (by omega)
    refine ⟨t, ?_, by simpa [digitsFuel] using hem⟩
    rw [hrad] at hread
    simp [emitLoop, hread, ht, hrad, Nat.div_eq_of_lt hlt]
  | succ k ih =>
    intro fuel en s hrad hA hen hf hop
    obtain ⟨f, rfl⟩ : ∃ f, fuel = f + 1 := ⟨fuel - 1, by omega⟩
    have hread : readEntry .alpha Config.tableDepth s.alpha (en % s.radix.toNat) = .ok (A (en % r)) := by
      rw [readEntry_eq_ok, hrad]
      exact ⟨lt_of_lt_of_le (Nat.mod_lt _ (by omega)) hr', hA _ (Nat.mod_lt _ (by omega))⟩
    obtain ⟨s', hs', hem⟩ := pushOut_emitted (A (en % r)) [] s s (Emitted.refl s) (by omega)
    by_cases hlt : en < r
    · refine ⟨s', ?_, by simpa [digitsFuel, hlt, Nat.mod_eq_of_lt hlt] using hem⟩
      rw [hrad] at hread
      simp [emitLoop, hread, hs', hrad, Nat.div_eq_of_lt hlt]
    · have hdiv : en / r < 2 ^ (k + 1) := by
        calc en / r ≤ en / 2 := Nat.div_le_div_left hr (by omega)
          _ < 2 ^ (k + 1) := by omega
      have hne : ¬ en / r = 0 := by
        have := Nat.div_pos (show r ≤ en by omega) (by omega)
        omega
      have hpos := hem.position
      have hrad' : s'.radix.toNat = r := by rw [hem.rest]; exact hrad
      have hA' : ∀ i, i < r → s'.alpha.read i = some (A i) := by
        intro i hi; rw [hem.rest]; exact hA i hi
      obtain ⟨t, ht, hem'⟩ := ih f (en / r) s' hrad' hA' hdiv (by omega) (by simp at hpos; omega)
      refine ⟨t, ?_, ?_⟩
      · rw [hrad] at hread
        simp [emitLoop, hread, hs', hrad, hne, ht]
      · simpa [digitsFuel, hlt] using Emitted.append hem hem'

/-- Everything `emit_digits` does when a codec is loaded (41_encode.md R120): it always answers, and the string it
stores is `digits(v)`. -/
theorem emitDigits_spec (A : Nat → Byte) (v : Value) (s : State) (hr : 2 ≤ s.radix.toNat)
    (hr' : s.radix.toNat ≤ 256) (hA : ∀ i, i < s.radix.toNat → s.alpha.read i = some (A i)) :
    ∃ t, emitDigits v s = .ok t ∧ Emitted (digits s.radix.toNat A v.toNat) { s with opos := 65 } t := by
  obtain ⟨t, ht, hem⟩ := emitLoop_spec s.radix.toNat A hr hr' 63 Config.outDepth v.toNat { s with opos := 65 }
    rfl hA v.isLt (by decide) (by change 64 ≤ (65 : BitVec 7).toNat; decide)
  exact ⟨t, by unfold emitDigits; rw [if_pos ⟨hr, hr'⟩]; exact ht, hem⟩

/-- An encode that stored `str` and answers its length has stored it as the response says. -/
theorem Emitted.outputStored {str : List Byte} {s t : State} (h : Emitted str { s with opos := 65 } t) :
    OutputStored str s (respondLength t) := by
  have hp : t.opos.toNat + str.length = 65 := h.position
  have hlen : outLength t = str.length := by unfold outLength Config.outDepth; omega
  refine ⟨?_, hp, h.chars, ?_⟩
  · rw [respondLength, hlen]
    conv_lhs => rw [h.rest]
    rfl
  · intro a ha
    exact h.others a (by simp; omega)

/-! ## What each shared operation can answer -/

/-- Every answer of `pushOut`, with no hypothesis: it writes OPOS and OBUF only. -/
theorem pushOut_frame {c : Byte} {s t : State} (h : pushOut c s = .ok t) :
    t = { s with obuf := t.obuf, opos := t.opos } := by
  unfold pushOut at h
  split at h
  · cases h
  · cases h; rfl

/-- Every answer of the loop of `emit_digits`: it writes OPOS and OBUF only. -/
theorem emitLoop_frame : ∀ (fuel en : Nat) {s t : State}, emitLoop fuel en s = .ok t →
    t = { s with obuf := t.obuf, opos := t.opos } := by
  intro fuel
  induction fuel with
  | zero => intro en s t h; simp [emitLoop] at h
  | succ fuel ih =>
    intro en s t h
    unfold emitLoop at h
    split at h
    · cases h
    · split at h
      · cases h
      · rename_i s' hs'
        have h1 := pushOut_frame hs'
        split at h
        · cases h; exact h1
        · have h2 := ih _ h
          rw [h2, h1]

/-- Every answer of `emit_digits`: it writes OPOS and OBUF only. -/
theorem emitDigits_frame {v : Value} {s t : State} (h : emitDigits v s = .ok t) :
    t = { s with obuf := t.obuf, opos := t.opos } := by
  unfold emitDigits at h
  split at h
  · have := emitLoop_frame _ _ h
    rw [this]
  · cases h

/-- Every answer of the string part of ENCS: it writes OPOS and OBUF only. -/
theorem emitSigned_frame {n : Value} {s t : State} (h : emitSigned n s = .ok t) :
    t = { s with obuf := t.obuf, opos := t.opos } := by
  unfold emitSigned at h
  split at h
  · cases h
  · rename_i s' hs'
    have h1 := emitDigits_frame hs'
    split at h
    · have h2 := pushOut_frame h
      rw [h2, h1]
    · cases h; exact h1

/-- Everything the string part of ENCS does when a codec is loaded (41_encode.md R124): it stores `enc_s(n)`. -/
theorem emitSigned_spec (A : Nat → Byte) (n : Value) (s : State) (hr : 2 ≤ s.radix.toNat)
    (hr' : s.radix.toNat ≤ 256) (hA : ∀ i, i < s.radix.toNat → s.alpha.read i = some (A i)) :
    ∃ t, emitSigned n s = .ok t ∧ Emitted (encS s.radix.toNat A n) { s with opos := 65 } t := by
  obtain ⟨s', hs', hem⟩ := emitDigits_spec A (magnitude n) s hr hr' hA
  have hlen := digitsFuel_length_le s.radix.toNat A 63 (magnitude n).toNat
  have hpos : s'.opos.toNat + (digits s.radix.toNat A (magnitude n).toNat).length = 65 := hem.position
  have hlt : 1 ≤ s'.opos.toNat := by unfold digits at hpos; omega
  by_cases hneg : isNegative n = true
  · obtain ⟨t, ht, hem'⟩ := pushOut_emitted signChar _ _ s' hem (by omega)
    exact ⟨t, by simp [emitSigned, hs', hneg, ht], by simpa [encS, magnitude, hneg] using hem'⟩
  · exact ⟨s', by simp [emitSigned, hs', hneg], by simpa [encS, magnitude, hneg] using hem⟩

/-- Every answer of `pushChar`: a repeated character, a new one, or one beyond the tables (40_alphabet.md R104). -/
theorem pushChar_cases {c : Byte} {s t : State} (h : pushChar c s = .ok t) :
    (s.acnt.toNat ≤ 255 ∧ s.rlutV.read c.toNat = some 1 ∧ t = { s with adup := true }) ∨
    (s.acnt.toNat ≤ 255 ∧ s.rlutV.read c.toNat = some 0 ∧ t = setDigit c s.acnt.toNat s) ∨
    (256 ≤ s.acnt.toNat ∧ t = s) := by
  unfold pushChar at h
  split at h
  · rename_i hle
    split at h
    · cases h
    · rename_i v hv
      have hv := ((readEntry_eq_ok _ _ _ _ _).mp hv).2
      split at h
      · rename_i h1
        subst h1
        cases h
        exact .inl ⟨hle, hv, rfl⟩
      · rename_i h1
        cases h
        have h0 : v = 0 := by
          have := v.isLt
          have hne : v.toNat ≠ 1 := fun h' => h1 (BitVec.eq_of_toNat_eq h')
          exact BitVec.eq_of_toNat_eq (show v.toNat = 0 by omega)
        exact .inr (.inl ⟨hle, h0 ▸ hv, rfl⟩)
  · cases h
    exact .inr (.inr ⟨by omega, rfl⟩)

/-- Every answer of `takeDigit`: a character with no digit, or the accumulation of its digit (42_decode.md R146). -/
theorem takeDigit_cases {c : Byte} {s t : State} (h : takeDigit c s = .ok t) :
    (s.rlutV.read c.toNat = some 0 ∧ t = latchError .invalidCharacter s) ∨
    (∃ d, s.rlutV.read c.toNat = some 1 ∧ s.rlutD.read c.toNat = some d ∧ t = accumulate d s) := by
  unfold takeDigit at h
  split at h
  · cases h
  · rename_i v hv
    have hv := ((readEntry_eq_ok _ _ _ _ _).mp hv).2
    split at h
    · rename_i h1
      subst h1
      cases hd : readEntry .rlutD Config.tableDepth s.rlutD c.toNat with
      | error f => rw [hd] at h; cases h
      | ok d =>
        rw [hd] at h
        cases h
        exact .inr ⟨d, hv, ((readEntry_eq_ok _ _ _ _ _).mp hd).2, rfl⟩
    · rename_i h1
      cases h
      have h0 : v = 0 := by
        have := v.isLt
        have hne : v.toNat ≠ 1 := fun h' => h1 (BitVec.eq_of_toNat_eq h')
        exact BitVec.eq_of_toNat_eq (show v.toNat = 0 by omega)
      exact .inl ⟨h0 ▸ hv, rfl⟩

/-- Both answers of the accumulation of a digit (42_decode.md R150). -/
theorem accumulate_cases (d : Byte) (s : State) :
    (2 ^ 64 ≤ s.dacc.toNat * s.radix.toNat + d.toNat ∧ accumulate d s = latchError .overflow s) ∨
    (s.dacc.toNat * s.radix.toNat + d.toNat < 2 ^ 64 ∧ accumulate d s =
      respondOk 0 { s with dacc := BitVec.ofNat 64 (s.dacc.toNat * s.radix.toNat + d.toNat) }) := by
  by_cases h : 2 ^ 64 ≤ s.dacc.toNat * s.radix.toNat + d.toNat
  · exact .inl ⟨h, if_pos ((unsignedOverflow_iff _).mpr h)⟩
  · exact .inr ⟨by omega, if_neg (fun h' => h ((unsignedOverflow_iff _).mp h'))⟩

/-- Every answer of `popOut`: the character at OPOS, and OPOS moved on (41_encode.md R128). -/
theorem popOut_cases {s t : State} (h : popOut s = .ok t) :
    ∃ c, s.opos.toNat < 65 ∧ s.obuf.read s.opos.toNat = some c ∧
      t = respondOk (c.setWidth 64) { s with opos := s.opos + 1 } := by
  unfold popOut at h
  split at h
  · cases h
  · rename_i c hc
    cases h
    have := (readEntry_eq_ok _ _ _ _ _).mp hc
    exact ⟨c, this.1, this.2, rfl⟩

/-- The response DEND gives, and nothing else (42_decode.md R148): one response, its data 0 unless its status is 0. -/
theorem sessionResult_eq (s : State) :
    ∃ st d, sessionResult s = respond st d s ∧ (st ≠ 0 → d = 0) ∧
      (st = s.derr ∨ st = statusCode .ok ∨ st = statusCode .emptyInput ∨ st = statusCode .overflow) := by
  unfold sessionResult
  split
  · exact ⟨_, _, rfl, fun _ => rfl, .inl rfl⟩
  · split
    · exact ⟨_, _, rfl, fun _ => rfl, .inr (.inr (.inl rfl))⟩
    · split
      · exact ⟨_, _, rfl, fun h => absurd rfl h, .inr (.inl rfl)⟩
      · split
        · exact ⟨_, _, rfl, fun _ => rfl, .inr (.inr (.inr rfl))⟩
        · split
          · exact ⟨_, _, rfl, fun h => absurd rfl h, .inr (.inl rfl)⟩
          · exact ⟨_, _, rfl, fun h => absurd rfl h, .inr (.inl rfl)⟩

/-- The outcome of a computation is a next state exactly when the computation answers it. -/
theorem outcomeOf_eq_next {r : Except Fault State} {t : State} : outcomeOf r = .next t ↔ r = .ok t := by
  cases r <;> simp [outcomeOf]

theorem outcomeOf_map_eq_next {r : Except Fault State} {f : State → State} {t : State} :
    outcomeOf (r.map f) = .next t ↔ ∃ u, r = .ok u ∧ f u = t := by
  cases r <;> simp [outcomeOf, Except.map]

end Sys2Proof.Machine
end

