-- ==== Sys2Proof/Laws/PerInstr.lean ====
section
/-! SUPPORT. The family of statements made once for each command: its encoding is a legal word of its opcode. -/

namespace Sys2Proof.Laws

/-- The word of a command carries its opcode and is well formed (30_encoding.md R70 to R73). -/
def EncodeLegal.Statement (i : Instr) : Prop :=
  opField (encode i) = i.opcode ∧ i.wellFormed = true

theorem EncodeLegal.abegin : EncodeLegal.Statement .abegin := by
  simp [EncodeLegal.Statement, Instr.wellFormed, wordWellFormed, formatOfOpcode, Instr.opcode, Instr.operand]

theorem EncodeLegal.apush (c : Byte) : EncodeLegal.Statement (.apush c) := by
  simp [EncodeLegal.Statement, Instr.wellFormed, wordWellFormed, formatOfOpcode, Instr.opcode, Instr.operand]

theorem EncodeLegal.acommit : EncodeLegal.Statement .acommit := by
  simp [EncodeLegal.Statement, Instr.wellFormed, wordWellFormed, formatOfOpcode, Instr.opcode, Instr.operand]

theorem EncodeLegal.ldlower (n : Value) : EncodeLegal.Statement (.ldlower n) := by
  simp [EncodeLegal.Statement, Instr.wellFormed, wordWellFormed, formatOfOpcode, Instr.opcode]

theorem EncodeLegal.ldupper (n : Value) : EncodeLegal.Statement (.ldupper n) := by
  simp [EncodeLegal.Statement, Instr.wellFormed, wordWellFormed, formatOfOpcode, Instr.opcode]

theorem EncodeLegal.ldb64 : EncodeLegal.Statement .ldb64 := by
  simp [EncodeLegal.Statement, Instr.wellFormed, wordWellFormed, formatOfOpcode, Instr.opcode, Instr.operand]

theorem EncodeLegal.base : EncodeLegal.Statement .base := by
  simp [EncodeLegal.Statement, Instr.wellFormed, wordWellFormed, formatOfOpcode, Instr.opcode, Instr.operand]

theorem EncodeLegal.encu (n : Value) : EncodeLegal.Statement (.encu n) := by
  simp [EncodeLegal.Statement, Instr.wellFormed, wordWellFormed, formatOfOpcode, Instr.opcode]

theorem EncodeLegal.encs (n : Value) : EncodeLegal.Statement (.encs n) := by
  simp [EncodeLegal.Statement, Instr.wellFormed, wordWellFormed, formatOfOpcode, Instr.opcode]

theorem EncodeLegal.opop : EncodeLegal.Statement .opop := by
  simp [EncodeLegal.Statement, Instr.wellFormed, wordWellFormed, formatOfOpcode, Instr.opcode, Instr.operand]

theorem EncodeLegal.dbegu : EncodeLegal.Statement .dbegu := by
  simp [EncodeLegal.Statement, Instr.wellFormed, wordWellFormed, formatOfOpcode, Instr.opcode, Instr.operand]

theorem EncodeLegal.dbegs : EncodeLegal.Statement .dbegs := by
  simp [EncodeLegal.Statement, Instr.wellFormed, wordWellFormed, formatOfOpcode, Instr.opcode, Instr.operand]

theorem EncodeLegal.dchar (c : Byte) : EncodeLegal.Statement (.dchar c) := by
  simp [EncodeLegal.Statement, Instr.wellFormed, wordWellFormed, formatOfOpcode, Instr.opcode, Instr.operand]

theorem EncodeLegal.dend : EncodeLegal.Statement .dend := by
  simp [EncodeLegal.Statement, Instr.wellFormed, wordWellFormed, formatOfOpcode, Instr.opcode, Instr.operand]

end Sys2Proof.Laws
end

