-- ==== Sys2Proof/Tests/Slice0.lean ====
section
/-! SUPPORT. Tests with expected values from the spec (the rule or the row of 95_test_vectors.md is named at each), and
for every statement with hypotheses a state and operands that meet them (`test_meets_…`). -/

namespace Sys2Proof.Machine

/-! ## States to test on -/

/-- The state after a command, the same state where it stops. -/
def after (i : Instr) (s : State) : State :=
  match exec i s with
  | .next t => t
  | .fault _ => s
  | .refused _ => s

/-- The codec "01" of radix 2 (95_test_vectors.md A15). -/
def codec2 : State :=
  { State.reset with
    valid := true
    radix := 2
    alpha := [(0, 0x30), (1, 0x31)]
    rlutV := ((Memory.fill 256 (0 : BitVec 1)).write 0x30 1).write 0x31 1
    rlutD := [(0x30, 0), (0x31, 1)] }

/-- Digit `i` of `codec2`. -/
def char2 (i : Nat) : Byte := if i = 0 then 0x30 else 0x31

/-- An open construction to which `acnt` characters were offered, 'a' the only one in the tables. -/
def building (acnt : BitVec 9) (adup : Bool) : State :=
  { State.reset with
    build := true
    acnt := acnt
    adup := adup
    alpha := [(0, 0x61)]
    rlutV := (Memory.fill 256 (0 : BitVec 1)).write 0x61 1
    rlutD := [(0x61, 0)] }

/-- A session of `codec2` that has taken characters. -/
def session (signed neg : Bool) (acc : Value) : State :=
  { codec2 with dact := true, dsgn := signed, dfirst := false, dneg := neg, dany := true, dacc := acc }

/-- A session of `codec2` before its first character. -/
def opened (signed : Bool) : State := openSession signed codec2

/-- `codec2` holding the output "10". -/
def holding : State := { codec2 with opos := 63, obuf := [(63, 0x31), (64, 0x30)] }

/-- `codec2` with stale contents in places no command reads. -/
def codec2Stale : State :=
  { codec2 with
    acnt := 5
    dacc := 77
    derr := 4
    alpha := [(0, 0x30), (1, 0x31), (9, 0x39)]
    rlutD := [(0x30, 0), (0x31, 1), (0x39, 9)]
    obuf := [(64, 0x31)] }

/-! ## Well-formed words: one ill-formed word for each check (30_encoding.md R78) -/

theorem test_wellformed_unassigned_opcode : wordWellFormed 0x000000000000000000#72 = false := by decide
theorem test_wellformed_all_ones : wordWellFormed 0xFFFFFFFFFFFFFFFFFF#72 = false := by decide
theorem test_wellformed_z_operand : wordWellFormed 0x100000000000000001#72 = false := by decide
theorem test_wellformed_c_operand : wordWellFormed 0x110000000000000100#72 = false := by decide
theorem test_wellformed_v_operand : wordWellFormed 0x13FFFFFFFFFFFFFFFF#72 = true := by decide

/-! ## Decoding: a word of every row, written out from 30_encoding.md R76 (op byte, then the operand) -/

theorem test_decode_abegin : decode 0x100000000000000000#72 = .ok .abegin := by decide
theorem test_decode_apush : decode 0x110000000000000061#72 = .ok (.apush 0x61) := by decide
theorem test_decode_acommit : decode 0x120000000000000000#72 = .ok .acommit := by decide
theorem test_decode_ldlower : decode 0x13000000000000000A#72 = .ok (.ldlower 10) := by decide
theorem test_decode_ldupper : decode 0x140000000000000025#72 = .ok (.ldupper 37) := by decide
theorem test_decode_ldb64 : decode 0x150000000000000000#72 = .ok .ldb64 := by decide
theorem test_decode_base : decode 0x160000000000000000#72 = .ok .base := by decide
theorem test_decode_encu : decode 0x2000000000000000FF#72 = .ok (.encu 255) := by decide
theorem test_decode_encs : decode 0x21FFFFFFFFFFFFFC18#72 = .ok (.encs 0xFFFFFFFFFFFFFC18) := by decide
theorem test_decode_opop : decode 0x220000000000000000#72 = .ok .opop := by decide
theorem test_decode_dbegu : decode 0x300000000000000000#72 = .ok .dbegu := by decide
theorem test_decode_dbegs : decode 0x310000000000000000#72 = .ok .dbegs := by decide
theorem test_decode_dchar : decode 0x32000000000000002D#72 = .ok (.dchar 0x2D) := by decide
theorem test_decode_dend : decode 0x330000000000000000#72 = .ok .dend := by decide
theorem test_decode_gap : decode 0x170000000000000000#72 = .error (.unassignedOpcode 0x17) := by decide
theorem test_decode_dchar_wide : decode 0x320000000000000131#72 = .error (.characterTooWide 0x32) := by decide
theorem test_decode_table_word : decodeTableWord 72 0x21FFFFFFFFFFFFFC18 = some (.encs 0xFFFFFFFFFFFFFC18) := by decide

/-! ## One step of each command -/

/-- 40_alphabet.md R102, Example. -/
theorem test_abegin : (after .abegin codec2).build = true ∧ (after .abegin codec2).valid = false ∧
    (after .abegin codec2).rlutV.read 0x30 = some 0 := by decide +kernel

/-- 40_alphabet.md R104, Example, second character new. -/
theorem test_apush_new : (after (.apush 0x62) (building 1 false)).alpha.read 1 = some 0x62 ∧
    (after (.apush 0x62) (building 1 false)).rlutD.read 0x62 = some 1 ∧
    (after (.apush 0x62) (building 1 false)).acnt = 2 := by decide +kernel

/-- 40_alphabet.md R104, Example: a second 'a' sets ADUP and counts. -/
theorem test_apush_repeat : (after (.apush 0x61) (building 1 false)).adup = true ∧
    (after (.apush 0x61) (building 1 false)).acnt = 2 := by decide +kernel

/-- 95_test_vectors.md A5. -/
theorem test_acommit_duplicate :
    (after .acommit (building 3 true)).rspOut = [0x20000000000000000#68] ∧
    (after .acommit (building 3 true)).valid = false := by decide

/-- 95_test_vectors.md A8: the size failure wins. -/
theorem test_acommit_size : (after .acommit (building 257 true)).rspOut = [0x10000000000000000#68] := by decide

/-- 40_alphabet.md R110, Example. -/
theorem test_ldlower : (after (.ldlower 16) State.reset).alpha.read 15 = some 0x66 ∧
    (after (.ldlower 16) State.reset).rlutD.read 0x66 = some 15 ∧
    (after (.ldlower 16) State.reset).rlutV.read 0x67 = some 0 := by decide +kernel

/-- 95_test_vectors.md A22: all 64 bits are compared; A26: the codec is gone. -/
theorem test_ldlower_outside : (after (.ldlower 0x0000000100000010) codec2).valid = false ∧
    (after (.ldlower 0x0000000100000010) codec2).rspOut = [0x10000000000000000#68] := by decide +kernel

/-- 40_alphabet.md R112, Example. -/
theorem test_ldupper : (after (.ldupper 16) State.reset).alpha.read 15 = some 0x46 ∧
    (after (.ldupper 16) State.reset).rlutV.read 0x66 = some 0 := by decide +kernel

/-- 40_alphabet.md R114, Example. -/
theorem test_ldb64 : (after .ldb64 State.reset).radix = 64 ∧ (after .ldb64 State.reset).alpha.read 63 = some 0x2F ∧
    (after .ldb64 State.reset).rlutD.read 0x2B = some 62 := by decide +kernel

/-- 40_alphabet.md R116, Corner cases and Example. -/
theorem test_base : (after .base { codec2 with radix := 256 }).rspOut = [0x00000000000000100#68] ∧
    (after .base State.reset).rspOut = [0x60000000000000000#68] := by decide

/-- 95_test_vectors.md 2.2 (a): LDLOWER 2, 10 is "1010", length 4. -/
theorem test_encu : (after (.encu 10) codec2).rspOut = [0x00000000000000004#68] ∧
    (after (.encu 10) codec2).obuf = [(61, 0x31), (62, 0x30), (63, 0x31), (64, 0x30)] := by decide +kernel

/-- 95_test_vectors.md 2.2 (a): LDLOWER 2, 0 is "0", length 1. -/
theorem test_encu_zero : (after (.encu 0) codec2).opos = 64 ∧
    (after (.encu 0) codec2).obuf = [(64, 0x30)] := by decide +kernel

/-- 95_test_vectors.md 2.2 (a): the longest output, "-1" and 63 times "0". -/
theorem test_encs_minimum : (after (.encs 0x8000000000000000) codec2).rspOut = [0x00000000000000041#68] ∧
    (after (.encs 0x8000000000000000) codec2).obuf.take 3 = [(0, 0x2D), (1, 0x31), (2, 0x30)] := by decide +kernel

/-- 95_test_vectors.md 2.2 (a): -1000 is "-1111101000", length 11. -/
theorem test_encs_negative : (after (.encs 0xFFFFFFFFFFFFFC18) codec2).rspOut = [0x0000000000000000B#68] := by
  decide +kernel

/-- 41_encode.md R128 and 95_test_vectors.md P3 step 6. -/
theorem test_opop : (after .opop holding).rspOut = [0x00000000000000031#68] ∧ (after .opop holding).opos = 64 ∧
    (after .opop codec2).rspOut = [0x90000000000000000#68] := by decide

/-- 42_decode.md R142: an open session is abandoned. -/
theorem test_dbegu : (after .dbegu (session true true 5)).dacc = 0 ∧
    (after .dbegu (session true true 5)).dsgn = false := by decide +kernel

/-- 42_decode.md R144. -/
theorem test_dbegs : (after .dbegs codec2).dact = true ∧ (after .dbegs codec2).dsgn = true ∧
    (after .dbegs codec2).dfirst = true := by decide +kernel

/-- 42_decode.md R146, R150: `DACC * RADIX + d`, and the exact bound `2^64`. -/
theorem test_dchar : (after (.dchar 0x31) (session false false 2)).dacc = 5 ∧
    (after (.dchar 0x30) (session false false 0x8000000000000000)).derr = 5 := by decide +kernel

/-- 42_decode.md R146: the sign is taken only in front of a signed string. -/
theorem test_dchar_sign : (after (.dchar 0x2D) (opened true)).dneg = true ∧
    (after (.dchar 0x2D) (opened false)).derr = 4 := by decide +kernel

/-- 95_test_vectors.md S17: 2^63 is accepted under the sign and not without it. -/
theorem test_dend_boundary :
    (after .dend (session true true 0x8000000000000000)).rspOut = [0x08000000000000000#68] ∧
    (after .dend (session true false 0x8000000000000000)).rspOut = [0x50000000000000000#68] := by decide +kernel

/-- 43_operations.md R185: "-" alone is empty. -/
theorem test_dend_empty : (after .dend { opened true with dneg := true, dfirst := false }).rspOut =
    [0x30000000000000000#68] := by decide +kernel

/-- 43_operations.md R190: "holycow" in base 36 is 38493362624, by the reference functions. -/
theorem test_holycow : encU 36 lowerChar 38493362624 = [0x68, 0x6F, 0x6C, 0x79, 0x63, 0x6F, 0x77] ∧
    decU 36 (lookupIn 36 lowerChar) [0x68, 0x6F, 0x6C, 0x79, 0x63, 0x6F, 0x77] = .ok 38493362624 := by
  exact ⟨by decide +kernel, by rfl⟩

/-- 10_state.md R43, its table: radices 10 and 36. -/
theorem test_length_bounds : maxlen 10 = 20 ∧ maxlen3 10 = 21 ∧ longestSigned 10 = 20 ∧ longestUnsigned 36 = 13 := by
  decide +kernel

/-! ## Witnesses: states and operands that meet the hypotheses of the statements -/

theorem char2_injective : ∀ i, i < 2 → ∀ j, j < 2 → char2 i = char2 j → i = j := by decide

/-- The invariants of `Inv` at a state with an open session on a loaded codec. -/
theorem test_meets_inv_session : Inv (session true false 2) where
  alphaWf := by decide +kernel
  rlutVWf := by decide +kernel
  rlutDWf := by decide +kernel
  obufWf := by decide +kernel
  codec := fun _ => ⟨char2,
    { valid := rfl
      radix := rfl
      radixMin := by decide
      radixMax := by decide
      alpha := by decide +kernel
      distinct := fun i j hi hj h => char2_injective i hi j hj h
      present := by decide +kernel
      absent := by decide +kernel }⟩
  buildAlone := by decide
  sessionHasCodec := by decide
  radixZero := by decide
  oposMax := by decide
  acntMax := by decide
  derrLegal := .inl rfl
  building := by intro h; cases h
  output := by intro i h1 h2; exact absurd h2 (Nat.not_lt.mpr h1)
  latched := by decide
  fresh := by decide
  noDigit := by decide
  signSigned := by decide

/-- The hypothesis of the round trips and sessions: a loaded codec. -/
theorem test_meets_codec : HoldsCodec codec2 2 char2 where
  valid := rfl
  radix := rfl
  radixMin := by decide
  radixMax := by decide
  alpha := by decide +kernel
  distinct := fun i j hi hj h => char2_injective i hi j hj h
  present := by decide +kernel
  absent := by decide +kernel

/-- The invariants of `Inv` at a state with a loaded codec and no session. -/
theorem test_meets_inv_codec : Inv codec2 where
  alphaWf := by decide +kernel
  rlutVWf := by decide +kernel
  rlutDWf := by decide +kernel
  obufWf := by decide +kernel
  codec := fun _ => ⟨char2, test_meets_codec⟩
  buildAlone := by decide
  sessionHasCodec := by decide
  radixZero := by decide
  oposMax := by decide
  acntMax := by decide
  derrLegal := .inl rfl
  building := by intro h; cases h
  output := by intro i h1 h2; exact absurd h2 (Nat.not_lt.mpr h1)
  latched := by decide
  fresh := by decide
  noDigit := by decide
  signSigned := by decide

/-- The invariants of `Inv` at the same codec with stale contents. -/
theorem test_meets_inv_stale : Inv codec2Stale where
  alphaWf := by decide +kernel
  rlutVWf := by decide +kernel
  rlutDWf := by decide +kernel
  obufWf := by decide +kernel
  codec := fun _ => ⟨char2,
    { valid := rfl
      radix := rfl
      radixMin := by decide
      radixMax := by decide
      alpha := by decide +kernel
      distinct := fun i j hi hj h => char2_injective i hi j hj h
      present := by decide +kernel
      absent := by decide +kernel }⟩
  buildAlone := by decide
  sessionHasCodec := by decide
  radixZero := by decide
  oposMax := by decide
  acntMax := by decide
  derrLegal := .inr (.inl rfl)
  building := by intro h; cases h
  output := by intro i h1 h2; exact absurd h2 (Nat.not_lt.mpr h1)
  latched := by decide
  fresh := by decide
  noDigit := by decide
  signSigned := by decide

/-- StepKeepsTheInvariant, StepCompletesUnderTheInvariant: `Inv` and a step that answers. -/
theorem test_meets_step_keeps_invariant :
    ∃ s t, Inv s ∧ s.valid = true ∧ step s = .next t :=
  ⟨codec2, codec2, test_meets_inv_codec, rfl, rfl⟩

/-- IndistinguishableStatesStaySo: two different states with the invariants that agree where commands read, and a
command that completes in both. -/
theorem test_meets_indistinguishable : SameToHost codec2 codec2Stale ∧ codec2 ≠ codec2Stale ∧
    exec .base codec2 = .next (after .base codec2) ∧ exec .base codec2Stale = .next (after .base codec2Stale) := by
  refine ⟨⟨rfl, rfl, rfl, rfl, rfl, rfl, ?_, ?_, ?_, ?_, ?_, ?_, ?_, ?_, ?_, ?_, ?_, ?_, ?_⟩, by decide, rfl, rfl⟩
  · intro h; cases h
  · intro h; cases h
  · intro h; cases h
  · intro h; cases h
  · intro h; cases h
  · intro h; cases h
  · intro h; cases h
  · intro h; cases h
  · intro _ i hi
    have : ∀ i, i < 2 → codec2.alpha.read i = codec2Stale.alpha.read i := by decide
    exact this i hi
  · intro h; cases h
  · intro _ b; rfl
  · intro _ b hb
    have : ∀ b : Byte, codec2.rlutV.read b.toNat = some 1 →
      codec2.rlutD.read b.toNat = codec2Stale.rlutD.read b.toNat := by decide +kernel
    exact this b hb
  · intro i h1 h2; exact absurd h2 (Nat.not_lt.mpr h1)

/-- ConstructionForgetsWhatWasBefore. -/
theorem test_meets_construction_forgets :
    codec2.opos = State.reset.opos ∧ codec2.rspOut = State.reset.rspOut ∧
    (∀ a, codec2.opos.toNat ≤ a → a < 65 → codec2.obuf.read a = State.reset.obuf.read a) ∧
    exec .abegin codec2 = .next (after .abegin codec2) ∧
    exec .abegin State.reset = .next (after .abegin State.reset) :=
  ⟨rfl, rfl, fun _ _ _ => rfl, rfl, rfl⟩

/-- StepUnderResetLeavesTheResetState and StepRunsTheDecodedCommand, both clauses of each. -/
theorem test_meets_step :
    (∃ s : State, s.cmdIn = .reset :: []) ∧ (∃ s : State, s.cmdIn = .commandCut 0x160000000000000000#72 :: []) ∧
    (∃ s : State, s.cmdIn = .command 0x160000000000000000#72 :: [.reset]) ∧
    decode 0x160000000000000000#72 = .ok .base ∧ decodeTableWord 72 0x160000000000000000 = some .base :=
  ⟨⟨{ codec2 with cmdIn := [.reset] }, rfl⟩, ⟨{ codec2 with cmdIn := [.commandCut 0x160000000000000000#72] }, rfl⟩,
    ⟨{ codec2 with cmdIn := [.command 0x160000000000000000#72, .reset] }, rfl⟩, by decide, by decide⟩

/-- StepAnswersIllegalWordsAndChangesNothing (95_test_vectors.md P4 step 4), and the answer. -/
theorem test_meets_illegal_step :
    decode 0x100000000000000001#72 = .error (.operandNotZero 0x10) ∧
    step (State.reset.withFetchWord 72 0x100000000000000001) =
      .next { State.reset with rspOut := [0x80000000000000000#68] } := by
  exact ⟨by decide, by rfl⟩

/-- StepWithoutHostActionWaits, RunIsTheLeftFoldOfTheCommands. -/
theorem test_meets_idle : State.reset.cmdIn = [] := rfl

/-- DecodeFollowsTheOpcodeMap: a word of a row, and a word of none. -/
theorem test_meets_opcode_map :
    (∃ row ∈ opcodeMap, 0x2000000000000000FF#72 &&& row.mask = row.pattern) ∧
    ∀ row ∈ opcodeMap, 0x170000000000000000#72 &&& row.mask ≠ row.pattern := by
  exact ⟨⟨_, List.mem_of_getElem? (show opcodeMap[7]? = some _ from rfl), by decide⟩, by decide⟩

/-- IllegalWordsAreExactlyTheStatedOnes: a word of each of the three kinds. -/
theorem test_meets_illegal_words :
    (decode 0x000000000000000000#72 = .error (.unassignedOpcode 0)) ∧
    (decode 0x338000000000000000#72 = .error (.operandNotZero 0x33)) ∧
    (decode 0x110000000000000100#72 = .error (.characterTooWide 0x11)) := by decide

/-- ApushOffersTheNextDigit: each clause, with 255 and 256 where they meet. -/
theorem test_meets_apush :
    State.reset.build = false ∧
    ((building 255 false).build = true ∧ (building 255 false).acnt.toNat ≤ 255 ∧
      (building 255 false).rlutV.read (0x61 : Byte).toNat = some 1) ∧
    ((building 255 false).rlutV.read (0x62 : Byte).toNat = some 0) ∧
    ((building 256 false).build = true ∧ 256 ≤ (building 256 false).acnt.toNat) := by decide +kernel

/-- AcommitChecksSizeThenDuplicate: each clause at the ends of its range. -/
theorem test_meets_acommit :
    (building 1 false).acnt.toNat < 2 ∧ 256 < (building 257 false).acnt.toNat ∧
    (2 ≤ (building 2 true).acnt.toNat ∧ (building 2 true).acnt.toNat ≤ 256 ∧ (building 2 true).adup = true) ∧
    (2 ≤ (building 256 false).acnt.toNat ∧ (building 256 false).acnt.toNat ≤ 256 ∧
      (building 256 false).adup = false) := by decide

/-- LdlowerLoadsTheLowerCasePreset, LdupperLoadsTheUpperCasePreset, ClearAndPresetLoadFrame: 1, 2, 36 and 37. -/
theorem test_meets_presets :
    presetIllegal 1 = true ∧ presetIllegal 2 = false ∧ presetIllegal 36 = false ∧ presetIllegal 37 = true ∧
    exec (.ldlower 2) codec2 = .next (after (.ldlower 2) codec2) ∧
    exec (.ldupper 37) codec2 = .next (after (.ldupper 37) codec2) :=
  ⟨by decide, by decide, by decide, by decide, rfl, rfl⟩

/-- BaseAnswersTheRadix, DbeguOpensAnUnsignedSession, DbegsOpensASignedSession. -/
theorem test_meets_valid : codec2.valid = true ∧ State.reset.valid = false := by decide

/-- EncuStoresTheUnsignedDigits, EncsStoresTheSignAndTheMagnitude, EncodeStoresOnlyItsString. -/
theorem test_meets_encode : codec2.valid = true ∧ 2 ≤ codec2.radix.toNat ∧ codec2.radix.toNat ≤ 256 ∧
    (∀ i, i < codec2.radix.toNat → codec2.alpha.read i = some (char2 i)) ∧
    (after (.encu 5) codec2).opos = 62 ∧ (after (.encs 5) codec2).opos = 62 := by decide +kernel

/-- OpopTakesTheNextCharacter: the last entry, and none. -/
theorem test_meets_opop :
    ({ holding with opos := 64 }.opos.toNat < 65 ∧ { holding with opos := 64 }.obuf.read 64 = some 0x30) ∧
    codec2.opos = 65 := by decide

/-- DcharTakesSignLooksUpAndAccumulates: each clause; the digits 0 and 1 at 2^63 - 1 and at 2^63 are the two sides of
the overflow test. -/
theorem test_meets_dchar :
    codec2.dact = false ∧
    ({ opened true with derr := 4 }.dact = true ∧ { opened true with derr := 4 }.derr ≠ 0) ∧
    ((opened true).dact = true ∧ (opened true).derr = 0 ∧ (opened true).dsgn = true ∧ (opened true).dfirst = true) ∧
    (¬((opened false).dsgn = true ∧ (opened false).dfirst = true ∧ (0x2D : Byte) = 0x2D) ∧
      (opened false).rlutV.read (0x2D : Byte).toNat = some 0) ∧
    ((opened true).rlutV.read (0x31 : Byte).toNat = some 1 ∧ (opened true).rlutD.read (0x31 : Byte).toNat = some 1 ∧
      (after (.dchar 0x31) (session false false 0x7FFFFFFFFFFFFFFF)).dacc = 0xFFFFFFFFFFFFFFFF ∧
      (after (.dchar 0x30) (session false false 0x8000000000000000)).derr = 5) := by decide +kernel

/-- DendDeliversTheResult: each clause. -/
theorem test_meets_dend :
    codec2.dact = false ∧ { session true false 0 with derr := 5 }.derr ≠ 0 ∧
    ((opened true).dact = true ∧ (opened true).derr = 0 ∧ (opened true).dany = false) ∧
    ((session false false 3).dact = true ∧ (session false false 3).dany = true ∧ (session false false 3).dsgn = false) ∧
    ((session true true 3).derr = 0 ∧ (session true true 3).dany = true ∧ (session true true 3).dsgn = true) := by
  decide

/-- LatchedErrorIsFinal. -/
theorem test_meets_latched : { session true false 0 with derr := 5 }.dact = true ∧
    { session true false 0 with derr := 5 }.derr ≠ 0 := by decide

/-- NoCodecTurnsAwayTheFiveCommands, second clause: reset has no codec and ENCU answers NoCodec there. -/
theorem test_meets_no_codec : (after (.encu 5) State.reset).rspOut = responded State.reset .noCodec 0 := by decide

/-- CommandsFollowThePhaseTable: a command turned away in each phase, and one that runs. -/
theorem test_meets_phases :
    (phaseOf State.reset = some .empty ∧ phaseStatus .base .empty = some .noCodec) ∧
    (phaseOf (building 1 false) = some .building ∧ phaseStatus .dend .building = some .badSequence) ∧
    (phaseOf codec2 = some .ready ∧ phaseStatus .acommit .ready = some .badSequence) ∧
    (phaseOf (opened true) = some .decoding ∧ phaseStatus (.apush 0) .decoding = some .badSequence) ∧
    phaseStatus .dend .decoding = none ∧ exec .dend (opened true) = .next (after .dend (opened true)) :=
  ⟨by decide, by decide, by decide, by decide, by decide, rfl⟩

/-- EveryCommandProducesOneResponse, ErrorResponsesCarryNoData, CommandsReportOnlyTheirStatuses,
ProtocolErrorsChangeNothing: a protocol error under the invariants. -/
theorem test_meets_responses :
    Inv codec2 ∧ exec .dend codec2 = .next (after .dend codec2) ∧
    (after .dend codec2).rspOut = codec2.rspOut ++ [0x70000000000000000#68] ∧
    rspStatus 0x70000000000000000#68 ≠ 0 ∧ protocolError 0x70000000000000000#68 = true :=
  ⟨test_meets_inv_codec, rfl, by decide, by decide, by decide⟩

/-- OtherCommandsKeepTheCodec, OtherCommandsKeepTheOutput, OtherCommandsKeepTheSession. -/
theorem test_meets_other_commands :
    (isConstruction .opop = false ∧ exec .opop holding = .next (after .opop holding)) ∧
    (isConstruction .ldb64 = true ∧ isDecoder .dbegu = true ∧ exec .ldb64 holding = .next (after .ldb64 holding)) ∧
    (isDecoder .acommit = false ∧ exec .acommit (building 2 false) = .next (after .acommit (building 2 false))) :=
  ⟨⟨by decide, rfl⟩, ⟨by decide, by decide, rfl⟩, ⟨by decide, rfl⟩⟩

/-- ApushAndAcommitFrame, DcharAndDendFrame: states in which the commands complete. -/
theorem test_meets_frames :
    exec (.apush 0x62) (building 1 false) = .next (after (.apush 0x62) (building 1 false)) ∧
    exec (.dchar 0x31) (opened true) = .next (after (.dchar 0x31) (opened true)) ∧
    exec .dend (session true true 3) = .next (after .dend (session true true 3)) :=
  ⟨rfl, rfl, rfl⟩

/-- The signed round trip: the alphabet of `codec2` has no sign character; 2 and 36 are radices it covers. -/
theorem test_meets_round_trip : (∀ i, i < 2 → char2 i ≠ 0x2D) ∧ 2 ≤ (2 : Value).toNat ∧ (36 : Value).toNat ≤ 36 := by
  decide

/-- DigitsRepresentTheValue, OutputLengthsAreBounded, UnsignedDecodeAcceptsExactly, UnsignedOverflowIsThePrecheck,
LengthBoundsCompareAsTabled: the smallest and the largest radix, and a value whose digits are those of the spec
(41_encode.md R130). -/
theorem test_meets_arithmetic :
    (∀ i, i < 2 → ∀ j, j < 2 → char2 i = char2 j → i = j) ∧ (2 : Nat) ≤ 2 ∧ (256 : Nat) ≤ 256 ∧
    digits 2 char2 9 = [0x31, 0x30, 0x30, 0x31] ∧ valueFrom 2 (lookupIn 2 char2) 0 [0x31, 0x30] = some 2 := by
  decide +kernel

/-- SignInTheAlphabetCollides: the alphabet "0-". -/
theorem test_meets_collision : ∃ A : Nat → Byte, A 0 = 0x30 ∧ A 1 = 0x2D :=
  ⟨fun i => if i = 0 then 0x30 else 0x2D, by decide, by decide⟩

/-- AccumulatorHoldsTheExactValue: the codec of `test_meets_codec`, and a string of digits on each side of 2^64
(in radix 2, 64 times "1", and "1" followed by 64 times "0"). -/
theorem test_meets_accumulator :
    valueFrom 2 (lookupIn 2 char2) 0 (List.replicate 64 0x31) = some (2 ^ 64 - 1) ∧
    valueFrom 2 (lookupIn 2 char2) 0 (0x31 :: List.replicate 64 0x30) = some (2 ^ 64) := by decide +kernel

/-- EncodeOfDecodeIsTheWord: a word that decodes. -/
theorem test_meets_encode_of_decode : decode 0x320000000000000031#72 = .ok (.dchar 0x31) := by decide

end Sys2Proof.Machine
end

section
/-! SUPPORT. What a command that completes can answer, once for all fourteen commands: `Answers`, and that it is exactly
`exec`. The proofs about commands split on it and do not unfold `exec`. -/

namespace Sys2Proof.Machine

/-! ## The preset loads -/

/-- The commands that load a preset, with the reference each loads from, the formula of its characters and their number
(40_alphabet.md R110, R112, R114). -/
inductive IsPreset : Instr → List Byte → (Nat → Byte) → Nat → Prop
  | lower {n : Value} (hmin : 2 ≤ n.toNat) (hmax : n.toNat ≤ 36) : IsPreset (.ldlower n) lowerRef lowerChar n.toNat
  | upper {n : Value} (hmin : 2 ≤ n.toNat) (hmax : n.toNat ≤ 36) : IsPreset (.ldupper n) upperRef upperChar n.toNat
  | b64 : IsPreset .ldb64 b64Ref b64Char 64

variable {i : Instr} {ref : List Byte} {char : Nat → Byte} {n : Nat}

/-- What the three references have in common (10_state.md R37). -/
theorem IsPreset.spec (hp : IsPreset i ref char n) :
    2 ≤ n ∧ n ≤ ref.length ∧ ref.length ≤ 64 ∧ ref.Nodup ∧ ∀ j (h : j < ref.length), ref[j] = char j := by
  cases hp with
  | lower hmin hmax =>
    obtain ⟨hlen, hnd, hch⟩ := lowerRef_spec
    exact ⟨hmin, by omega, by omega, hnd, hch⟩
  | upper hmin hmax =>
    obtain ⟨hlen, hnd, hch⟩ := upperRef_spec
    exact ⟨hmin, by omega, by omega, hnd, hch⟩
  | b64 =>
    obtain ⟨hlen, hnd, hch⟩ := b64Ref_spec
    exact ⟨by omega, by omega, by omega, hnd, hch⟩

theorem IsPreset.loaded (hp : IsPreset i ref char n) (s : State) :
    PresetLoaded char n s (respondOk 0 (loadPreset ref n (clearCodec s))) := by
  obtain ⟨-, hn, -, hnd, hch⟩ := hp.spec
  exact loadPreset_spec ref char n s hn hnd hch

theorem IsPreset.char_injective (hp : IsPreset i ref char n) {j k : Nat} (hj : j < n) (hk : k < n)
    (h : char j = char k) : j = k := by
  obtain ⟨-, hn, -, hnd, hch⟩ := hp.spec
  exact (hnd.getElem_inj_iff (hi := by omega) (hj := by omega)).mp ((hch j _).trans (h.trans (hch k _).symm))

/-- `clear_codec()` on the way to a response without data (40_alphabet.md R101). -/
theorem codecCleared_clearCodec (b : Bool) (e : Status) (s : State) :
    CodecCleared b e s (raise e { clearCodec s with build := b }) :=
  ⟨rfl, fun c => clearCodec_cleared c s⟩

/-! ## The answers of the commands -/

/-- `Answers i s t`: command `i` completes in `s` and leaves `t`. One constructor for each way a command can end, with
the tests that lead there (40_alphabet.md R102 to R116, 41_encode.md R122 to R128, 42_decode.md R142 to R148). -/
inductive Answers : Instr → State → State → Prop
  | abegin {s : State} : Answers .abegin s (respondOk 0 { clearCodec s with build := true })
  | apushNoBuild {c : Byte} {s : State} (hb : s.build = false) : Answers (.apush c) s (raise .badSequence s)
  | apushRepeat {c : Byte} {s : State} (hb : s.build = true) (hn : s.acnt.toNat ≤ 255)
      (hv : s.rlutV.read c.toNat = some 1) :
      Answers (.apush c) s (respondOk 0 { s with adup := true, acnt := countNext s.acnt })
  | apushNew {c : Byte} {s : State} (hb : s.build = true) (hn : s.acnt.toNat ≤ 255)
      (hv : s.rlutV.read c.toNat = some 0) :
      Answers (.apush c) s (respondOk 0 { setDigit c s.acnt.toNat s with acnt := countNext s.acnt })
  | apushBeyond {c : Byte} {s : State} (hb : s.build = true) (hn : 256 ≤ s.acnt.toNat) :
      Answers (.apush c) s (respondOk 0 { s with acnt := countNext s.acnt })
  | acommitNoBuild {s : State} (hb : s.build = false) : Answers .acommit s (raise .badSequence s)
  | acommitSize {s : State} (hb : s.build = true) (hn : s.acnt.toNat < 2 ∨ 256 < s.acnt.toNat) :
      Answers .acommit s (raise .invalidAlphabetSize { s with build := false })
  | acommitRepeat {s : State} (hb : s.build = true) (hmin : 2 ≤ s.acnt.toNat) (hmax : s.acnt.toNat ≤ 256)
      (hd : s.adup = true) : Answers .acommit s (raise .duplicateCharacter { s with build := false })
  | acommitOk {s : State} (hb : s.build = true) (hmin : 2 ≤ s.acnt.toNat) (hmax : s.acnt.toNat ≤ 256)
      (hd : s.adup = false) :
      Answers .acommit s (respondOk 0 { s with build := false, radix := s.acnt, valid := true })
  | preset {i : Instr} {ref : List Byte} {char : Nat → Byte} {n : Nat} {s : State} (hp : IsPreset i ref char n) :
      Answers i s (respondOk 0 (loadPreset ref n (clearCodec s)))
  | ldlowerIllegal {n : Value} {s : State} (hn : n.toNat < 2 ∨ 36 < n.toNat) :
      Answers (.ldlower n) s (raise .invalidAlphabetSize (clearCodec s))
  | ldupperIllegal {n : Value} {s : State} (hn : n.toNat < 2 ∨ 36 < n.toNat) :
      Answers (.ldupper n) s (raise .invalidAlphabetSize (clearCodec s))
  | baseNoCodec {s : State} (hv : s.valid = false) : Answers .base s (raise .noCodec s)
  | base {s : State} (hv : s.valid = true) : Answers .base s (respondOk (s.radix.setWidth 64) s)
  | encuNoCodec {n : Value} {s : State} (hv : s.valid = false) : Answers (.encu n) s (raise .noCodec s)
  | encu {n : Value} {s u : State} (hv : s.valid = true) (hu : emitDigits n s = .ok u) :
      Answers (.encu n) s (respondLength u)
  | encsNoCodec {n : Value} {s : State} (hv : s.valid = false) : Answers (.encs n) s (raise .noCodec s)
  | encs {n : Value} {s u : State} (hv : s.valid = true) (hu : emitSigned n s = .ok u) :
      Answers (.encs n) s (respondLength u)
  | opopEmpty {s : State} (ho : s.opos = 65) : Answers .opop s (raise .outputEmpty s)
  | opop {c : Byte} {s : State} (ho : s.opos.toNat < 65) (hc : s.obuf.read s.opos.toNat = some c) :
      Answers .opop s (respondOk (c.setWidth 64) { s with opos := s.opos + 1 })
  | dbeguNoCodec {s : State} (hv : s.valid = false) : Answers .dbegu s (raise .noCodec s)
  | dbegu {s : State} (hv : s.valid = true) : Answers .dbegu s (respondOk 0 (openSession false s))
  | dbegsNoCodec {s : State} (hv : s.valid = false) : Answers .dbegs s (raise .noCodec s)
  | dbegs {s : State} (hv : s.valid = true) : Answers .dbegs s (respondOk 0 (openSession true s))
  | dcharNoSession {c : Byte} {s : State} (hda : s.dact = false) : Answers (.dchar c) s (raise .badSequence s)
  | dcharLatched {c : Byte} {s : State} (hda : s.dact = true) (he : s.derr ≠ 0) :
      Answers (.dchar c) s (respond s.derr 0 s)
  | dcharSign {c : Byte} {s : State} (hda : s.dact = true) (he : s.derr = 0)
      (hsg : takesSign s.dsgn s.dfirst c = true) :
      Answers (.dchar c) s (respondOk 0 { s with dneg := true, dfirst := false })
  | dcharUnknown {c : Byte} {s : State} (hda : s.dact = true) (he : s.derr = 0)
      (hsg : takesSign s.dsgn s.dfirst c = false) (hv : s.rlutV.read c.toNat = some 0) :
      Answers (.dchar c) s (latchError .invalidCharacter { s with dfirst := false, dany := true })
  | dcharOverflow {c d : Byte} {s : State} (hda : s.dact = true) (he : s.derr = 0)
      (hsg : takesSign s.dsgn s.dfirst c = false) (hv : s.rlutV.read c.toNat = some 1)
      (hd : s.rlutD.read c.toNat = some d) (hov : 2 ^ 64 ≤ s.dacc.toNat * s.radix.toNat + d.toNat) :
      Answers (.dchar c) s (latchError .overflow { s with dfirst := false, dany := true })
  | dcharDigit {c d : Byte} {s : State} (hda : s.dact = true) (he : s.derr = 0)
      (hsg : takesSign s.dsgn s.dfirst c = false) (hv : s.rlutV.read c.toNat = some 1)
      (hd : s.rlutD.read c.toNat = some d) (hov : s.dacc.toNat * s.radix.toNat + d.toNat < 2 ^ 64) :
      Answers (.dchar c) s (respondOk 0 { s with
        dfirst := false
        dany := true
        dacc := BitVec.ofNat 64 (s.dacc.toNat * s.radix.toNat + d.toNat) })
  | dendNoSession {s : State} (hda : s.dact = false) : Answers .dend s (raise .badSequence s)
  | dend {s : State} (hda : s.dact = true) : Answers .dend s (sessionResult { s with dact := false })

variable {s t : State}

/-- Most commands run where one register allows it and are turned away elsewhere. -/
theorem ite_eq_next {b : Bool} {o : Host.Outcome State Fault Refusal} {u : State}
    (h : (if b then o else .next u) = .next t) : (b = true ∧ o = .next t) ∨ (b = false ∧ u = t) := by
  cases b with
  | true => exact .inl ⟨rfl, h⟩
  | false => cases h; exact .inr ⟨rfl, rfl⟩

theorem answers_of_execApush {c : Byte} (h : execApush c s = .next t) : Answers (.apush c) s t := by
  obtain ⟨hb, h⟩ | ⟨hb, rfl⟩ := ite_eq_next h
  · obtain ⟨u, hu, rfl⟩ := outcomeOf_map_eq_next.mp h
    obtain ⟨hn, hv, rfl⟩ | ⟨hn, hv, rfl⟩ | ⟨hn, rfl⟩ := pushChar_cases hu
    · exact .apushRepeat hb hn hv
    · exact .apushNew hb hn hv
    · exact .apushBeyond hb hn
  · exact .apushNoBuild hb

theorem answers_of_execAcommit (h : execAcommit s = .next t) : Answers .acommit s t := by
  obtain ⟨hb, h⟩ | ⟨hb, rfl⟩ := ite_eq_next h
  · split at h
    · rename_i hn
      cases h
      exact .acommitSize hb ((sizeIllegal_iff _).mp hn)
    · rename_i hn
      rw [sizeIllegal_iff] at hn
      split at h
      · rename_i hd
        cases h
        exact .acommitRepeat hb (by omega) (by omega) hd
      · rename_i hd
        cases h
        exact .acommitOk hb (by omega) (by omega) (by simpa using hd)
  · exact .acommitNoBuild hb

/-- The two answers of LDLOWER and LDUPPER, whatever the reference (40_alphabet.md R110, R112). -/
theorem presetOrRaise_cases (ref : List Byte) (n : Value) (s : State) :
    ((n.toNat < 2 ∨ 36 < n.toNat) ∧ presetOrRaise ref n s = raise .invalidAlphabetSize (clearCodec s)) ∨
    (2 ≤ n.toNat ∧ n.toNat ≤ 36 ∧ presetOrRaise ref n s = respondOk 0 (loadPreset ref n.toNat (clearCodec s))) := by
  by_cases hn : presetIllegal n = true
  · exact .inl ⟨(presetIllegal_iff n).mp hn, if_pos hn⟩
  · have hn' := mt (presetIllegal_iff n).mpr hn
    exact .inr ⟨by omega, by omega, if_neg hn⟩

theorem answers_ldlower (n : Value) (s : State) : Answers (.ldlower n) s (presetOrRaise lowerRef n s) := by
  obtain ⟨hn, he⟩ | ⟨hmin, hmax, he⟩ := presetOrRaise_cases lowerRef n s
  · rw [he]; exact .ldlowerIllegal hn
  · rw [he]; exact .preset (.lower hmin hmax)

theorem answers_ldupper (n : Value) (s : State) : Answers (.ldupper n) s (presetOrRaise upperRef n s) := by
  obtain ⟨hn, he⟩ | ⟨hmin, hmax, he⟩ := presetOrRaise_cases upperRef n s
  · rw [he]; exact .ldupperIllegal hn
  · rw [he]; exact .preset (.upper hmin hmax)

theorem answers_of_execOpop (h : execOpop s = .next t) : Answers .opop s t := by
  unfold execOpop at h
  split at h
  · rename_i ho
    cases h
    exact .opopEmpty ho
  · obtain ⟨c, ho, hc, rfl⟩ := popOut_cases (outcomeOf_eq_next.mp h)
    exact .opop ho hc

theorem answers_of_execDchar {c : Byte} (h : execDchar c s = .next t) : Answers (.dchar c) s t := by
  obtain ⟨hda, h⟩ | ⟨hda, rfl⟩ := ite_eq_next h
  · split at h
    · rename_i he
      cases h
      exact .dcharLatched hda he
    · rename_i he
      have he : s.derr = 0 := by simpa using he
      split at h
      · rename_i hsg
        cases h
        exact .dcharSign hda he hsg
      · rename_i hsg
        have hsg : takesSign s.dsgn s.dfirst c = false := by simpa using hsg
        obtain ⟨hv, rfl⟩ | ⟨d, hv, hd, rfl⟩ := takeDigit_cases (outcomeOf_eq_next.mp h)
        · exact .dcharUnknown hda he hsg hv
        · obtain ⟨hov, hacc⟩ | ⟨hov, hacc⟩ := accumulate_cases d { s with dfirst := false, dany := true }
          · rw [hacc]; exact .dcharOverflow hda he hsg hv hd hov
          · rw [hacc]; exact .dcharDigit hda he hsg hv hd hov
  · exact .dcharNoSession hda

/-- Every answer of `exec` is one of `Answers`. -/
theorem answers_of_exec (h : exec i s = .next t) : Answers i s t := by
  cases i with
  | abegin => cases h; exact .abegin
  | apush c => exact answers_of_execApush h
  | acommit => exact answers_of_execAcommit h
  | ldlower n => cases h; exact answers_ldlower n s
  | ldupper n => cases h; exact answers_ldupper n s
  | ldb64 => cases h; exact .preset .b64
  | base =>
    obtain ⟨hv, h⟩ | ⟨hv, rfl⟩ := ite_eq_next h
    · cases h; exact .base hv
    · exact .baseNoCodec hv
  | encu n =>
    obtain ⟨hv, h⟩ | ⟨hv, rfl⟩ := ite_eq_next h
    · obtain ⟨u, hu, rfl⟩ := outcomeOf_map_eq_next.mp h
      exact .encu hv hu
    · exact .encuNoCodec hv
  | encs n =>
    obtain ⟨hv, h⟩ | ⟨hv, rfl⟩ := ite_eq_next h
    · obtain ⟨u, hu, rfl⟩ := outcomeOf_map_eq_next.mp h
      exact .encs hv hu
    · exact .encsNoCodec hv
  | opop => exact answers_of_execOpop h
  | dbegu =>
    obtain ⟨hv, h⟩ | ⟨hv, rfl⟩ := ite_eq_next h
    · cases h; exact .dbegu hv
    · exact .dbeguNoCodec hv
  | dbegs =>
    obtain ⟨hv, h⟩ | ⟨hv, rfl⟩ := ite_eq_next h
    · cases h; exact .dbegs hv
    · exact .dbegsNoCodec hv
  | dchar c => exact answers_of_execDchar h
  | dend =>
    obtain ⟨hda, h⟩ | ⟨hda, rfl⟩ := ite_eq_next h
    · cases h; exact .dend hda
    · exact .dendNoSession hda

/-- Every read inside the depth of a written entry answers its value. -/
theorem readEntry_of_read {w : Nat} {name : MemName} {depth a : Nat} {m : Memory w} {v : BitVec w}
    (ha : a < depth) (h : m.read a = some v) : readEntry name depth m a = .ok v :=
  (readEntry_eq_ok name depth m a v).mpr ⟨ha, h⟩

/-- Each of `Answers` is an answer of `exec`. -/
theorem Answers.exec (h : Answers i s t) : exec i s = .next t := by
  cases h with
  | abegin => rfl
  | apushNoBuild hb => simp [Machine.exec, execApush, hb]
  | @apushRepeat c _ hb hn hv =>
    simp [Machine.exec, execApush, pushChar, hb, hn, readEntry_of_read c.isLt hv, outcomeOf, Except.map]
  | @apushNew c _ hb hn hv =>
    simp [Machine.exec, execApush, pushChar, hb, hn, readEntry_of_read c.isLt hv, outcomeOf, Except.map]
  | apushBeyond hb hn =>
    simp [Machine.exec, execApush, pushChar, hb, show ¬ s.acnt.toNat ≤ 255 by omega, outcomeOf, Except.map]
  | acommitNoBuild hb => simp [Machine.exec, execAcommit, hb]
  | acommitSize hb hn => simp [Machine.exec, execAcommit, hb, (sizeIllegal_iff _).mpr hn]
  | acommitRepeat hb hmin hmax hd =>
    have hn : ¬ sizeIllegal s.acnt = true := by rw [sizeIllegal_iff]; omega
    simp [Machine.exec, execAcommit, hb, hn, hd]
  | acommitOk hb hmin hmax hd =>
    have hn : ¬ sizeIllegal s.acnt = true := by rw [sizeIllegal_iff]; omega
    simp [Machine.exec, execAcommit, hb, hn, hd]
  | preset hp =>
    cases hp with
    | lower hmin hmax =>
      exact congrArg _ (if_neg fun hn => by have := (presetIllegal_iff _).mp hn; omega)
    | upper hmin hmax =>
      exact congrArg _ (if_neg fun hn => by have := (presetIllegal_iff _).mp hn; omega)
    | b64 => rfl
  | ldlowerIllegal hn => exact congrArg _ (if_pos ((presetIllegal_iff _).mpr hn))
  | ldupperIllegal hn => exact congrArg _ (if_pos ((presetIllegal_iff _).mpr hn))
  | baseNoCodec hv => simp [Machine.exec, execBase, hv]
  | base hv => simp [Machine.exec, execBase, hv]
  | encuNoCodec hv => simp [Machine.exec, execEncu, hv]
  | encu hv hu => simp [Machine.exec, execEncu, hv, hu, outcomeOf, Except.map]
  | encsNoCodec hv => simp [Machine.exec, execEncs, hv]
  | encs hv hu => simp [Machine.exec, execEncs, hv, hu, outcomeOf, Except.map]
  | opopEmpty ho => simp [Machine.exec, execOpop, ho]
  | opop ho hc =>
    have hne : ¬ s.opos = 65#7 := fun h => by rw [h] at ho; exact absurd ho (by decide)
    simp [Machine.exec, execOpop, hne, popOut, readEntry_of_read ho hc, outcomeOf]
  | dbeguNoCodec hv => simp [Machine.exec, execDbegu, hv]
  | dbegu hv => simp [Machine.exec, execDbegu, hv]
  | dbegsNoCodec hv => simp [Machine.exec, execDbegs, hv]
  | dbegs hv => simp [Machine.exec, execDbegs, hv]
  | dcharNoSession hda => simp [Machine.exec, execDchar, hda]
  | dcharLatched hda he =>
    have he : ¬ s.derr = 0#4 := he
    simp [Machine.exec, execDchar, hda, he]
  | dcharSign hda he hsg => simp [Machine.exec, execDchar, hda, he, hsg]
  | @dcharUnknown c _ hda he hsg hv =>
    simp [Machine.exec, execDchar, hda, he, hsg, takeDigit, readEntry_of_read c.isLt hv, outcomeOf]
  | @dcharOverflow c d _ hda he hsg hv hd hov =>
    simp [Machine.exec, execDchar, hda, he, hsg, takeDigit, readEntry_of_read c.isLt hv, readEntry_of_read c.isLt hd,
      outcomeOf, Except.map, accumulate, mulAdd, (unsignedOverflow_iff _).mpr hov]
  | @dcharDigit c d _ hda he hsg hv hd hov =>
    have hno : ¬ unsignedOverflow (s.dacc.toNat * s.radix.toNat + d.toNat) = true := by
      rw [unsignedOverflow_iff]; omega
    simp [Machine.exec, execDchar, hda, he, hsg, takeDigit, readEntry_of_read c.isLt hv, readEntry_of_read c.isLt hd,
      outcomeOf, Except.map, accumulate, mulAdd, hno]
  | dendNoSession hda => simp [Machine.exec, execDend, hda]
  | dend hda => simp [Machine.exec, execDend, hda]

/-- A command completes in `s` and leaves `t` exactly as `Answers` says. -/
theorem exec_eq_next_iff : exec i s = .next t ↔ Answers i s t := ⟨answers_of_exec, Answers.exec⟩

/-- A command has one answer at most. -/
theorem Answers.unique {t' : State} (h : Answers i s t) (h' : Answers i s t') : t = t' := by
  have he := h.exec.symm.trans h'.exec
  cases he
  rfl

/-! ## The answers of a step -/

/-- `StepAnswers s t`: a step from `s` leaves `t`, by each of the host's actions (20_memory.md R60,
70_reset_and_hazards.md R230, R232, 30_encoding.md R77, R78). -/
inductive StepAnswers (s : State) : State → Prop
  | waits (hc : s.cmdIn = []) : StepAnswers s s
  | command {w : CmdWord} {rest : List HostAction} {i : Instr} {t : State} (hc : s.cmdIn = .command w :: rest)
      (hw : decode w = .ok i) (ha : Answers i { s with cmdIn := rest } t) : StepAnswers s t
  | illegal {w : CmdWord} {rest : List HostAction} {e : IllegalWord} (hc : s.cmdIn = .command w :: rest)
      (hw : decode w = .error e) : StepAnswers s (raise .illegalCommand { s with cmdIn := rest })
  | reset {rest : List HostAction} (hc : s.cmdIn = .reset :: rest) :
      StepAnswers s (resetBlock { s with cmdIn := rest })
  | cut {w : CmdWord} {rest : List HostAction} (hc : s.cmdIn = .commandCut w :: rest) :
      StepAnswers s (resetBlock { s with cmdIn := rest })

theorem stepAnswers_of_step (h : step s = .next t) : StepAnswers s t := by
  cases hc : s.cmdIn with
  | nil =>
    simp only [step, fetch, hc] at h
    cases h
    exact .waits hc
  | cons a rest =>
    cases a with
    | command w =>
      cases hw : decode w with
      | ok i =>
        simp only [step, fetch, hc, runWord, hw] at h
        exact .command hc hw (answers_of_exec h)
      | error e =>
        simp only [step, fetch, hc, runWord, hw] at h
        cases h
        exact .illegal hc hw
    | reset =>
      simp only [step, fetch, hc] at h
      cases h
      exact .reset hc
    | commandCut w =>
      simp only [step, fetch, hc] at h
      cases h
      exact .cut hc

theorem StepAnswers.step (h : StepAnswers s t) : step s = .next t := by
  cases h with
  | waits hc => simp [Machine.step, fetch, hc]
  | command hc hw ha => simp [Machine.step, fetch, hc, runWord, hw, ha.exec]
  | illegal hc hw => simp [Machine.step, fetch, hc, runWord, hw, execIllegal]
  | reset hc => simp [Machine.step, fetch, hc]
  | cut hc => simp [Machine.step, fetch, hc]

/-- A step from `s` leaves `t` exactly as `StepAnswers` says. -/
theorem step_eq_next_iff : step s = .next t ↔ StepAnswers s t := ⟨stepAnswers_of_step, StepAnswers.step⟩

end Sys2Proof.Machine
end

section
/-! SUPPORT. The three parts of the state, one for each unit of the block, and the frames of the commands: a command
leaves the parts of the other two units as they were (10_state.md R25, R44, 20_memory.md R51). -/

namespace Sys2Proof.Machine

/-! ## The parts of the state -/

/-- What alphabet_rom holds: the codec and the builder (10_state.md R26 to R29, R34, R35). -/
structure CodecPart where
  valid : Bool
  radix : BitVec 9
  build : Bool
  acnt : BitVec 9
  adup : Bool
  alpha : Memory 8
  rlutV : Memory 1
  rlutD : Memory 8

/-- What radix_encoder holds: the output buffer (10_state.md R30, R36). -/
structure OutputPart where
  obuf : Memory 8
  opos : BitVec 7

/-- What radix_decoder holds, but for DACT, which `clear_codec` writes too (10_state.md R21, R25, R32, R33). -/
structure SessionPart where
  dsgn : Bool
  dfirst : Bool
  dneg : Bool
  dany : Bool
  dacc : Value
  derr : BitVec 4

def State.codecPart (s : State) : CodecPart :=
  ⟨s.valid, s.radix, s.build, s.acnt, s.adup, s.alpha, s.rlutV, s.rlutD⟩

def State.outputPart (s : State) : OutputPart := ⟨s.obuf, s.opos⟩

def State.sessionPart (s : State) : SessionPart := ⟨s.dsgn, s.dfirst, s.dneg, s.dany, s.dacc, s.derr⟩

variable {i : Instr} {s t : State}

theorem codecPart_eq_iff : t.codecPart = s.codecPart ↔
    t.valid = s.valid ∧ t.radix = s.radix ∧ t.build = s.build ∧ t.acnt = s.acnt ∧ t.adup = s.adup ∧
    t.alpha = s.alpha ∧ t.rlutV = s.rlutV ∧ t.rlutD = s.rlutD := by
  simp [State.codecPart]

theorem outputPart_eq_iff : t.outputPart = s.outputPart ↔ t.obuf = s.obuf ∧ t.opos = s.opos := by
  simp [State.outputPart]

theorem sessionPart_eq_iff : t.sessionPart = s.sessionPart ↔
    t.dsgn = s.dsgn ∧ t.dfirst = s.dfirst ∧ t.dneg = s.dneg ∧ t.dany = s.dany ∧ t.dacc = s.dacc ∧
    t.derr = s.derr := by
  simp [State.sessionPart]

/-! ## What the shared operations leave unchanged -/

/-- A preset load writes the codec and DACT only, and closes the session (40_alphabet.md R101, R108). -/
theorem PresetLoaded.frame {char : Nat → Byte} {n : Nat} (h : PresetLoaded char n s t) :
    t.outputPart = s.outputPart ∧ t.sessionPart = s.sessionPart ∧ t.dact = false := by
  rw [h.rest]
  exact ⟨rfl, rfl, rfl⟩

/-- What an encode writes lies in the output part (20_memory.md R51). -/
theorem frame_of_output_rest (h : t = { s with obuf := t.obuf, opos := t.opos }) :
    t.codecPart = s.codecPart ∧ t.sessionPart = s.sessionPart ∧ t.dact = s.dact := by
  rw [h]
  exact ⟨rfl, rfl, rfl⟩

/-- DEND writes no more than DACT and its response (42_decode.md R148). -/
theorem sessionResult_frame (s : State) : (sessionResult s).codecPart = s.codecPart ∧
    (sessionResult s).outputPart = s.outputPart ∧ (sessionResult s).sessionPart = s.sessionPart ∧
    (sessionResult s).dact = s.dact := by
  obtain ⟨st, d, he, -, -⟩ := sessionResult_eq s
  rw [he]
  exact ⟨rfl, rfl, rfl, rfl⟩

/-! ## The frames of the commands -/

theorem IsPreset.isConstruction {ref : List Byte} {char : Nat → Byte} {n : Nat} (hp : IsPreset i ref char n) :
    isConstruction i = true := by
  cases hp <;> rfl

/-- The commands that begin with `clear_codec()` (40_alphabet.md R101, R102, R108). -/
def clearsCodec : Instr → Bool
  | .abegin => true
  | .ldlower _ => true
  | .ldupper _ => true
  | .ldb64 => true
  | _ => false

theorem clearsCodec_iff (i : Instr) : clearsCodec i = true ↔
    i = .abegin ∨ (∃ n, i = .ldlower n) ∨ (∃ n, i = .ldupper n) ∨ i = .ldb64 := by
  constructor
  · intro h
    cases i with
    | abegin => exact .inl rfl
    | ldlower n => exact .inr (.inl ⟨n, rfl⟩)
    | ldupper n => exact .inr (.inr (.inl ⟨n, rfl⟩))
    | ldb64 => exact .inr (.inr (.inr rfl))
    | _ => cases h
  · rintro (rfl | ⟨n, rfl⟩ | ⟨n, rfl⟩ | rfl) <;> rfl

theorem IsPreset.clearsCodec {ref : List Byte} {char : Nat → Byte} {n : Nat} (hp : IsPreset i ref char n) :
    clearsCodec i = true := by
  cases hp <;> rfl

/-- The commands of the encoder and the decoder, and BASE, leave the codec and the builder as they were. -/
theorem Answers.codecPart_eq (h : Answers i s t) (hi : isConstruction i = false) : t.codecPart = s.codecPart := by
  cases h with
  | abegin | apushNoBuild | apushRepeat | apushNew | apushBeyond => cases hi
  | acommitNoBuild | acommitSize | acommitRepeat | acommitOk | ldlowerIllegal | ldupperIllegal => cases hi
  | preset hp => rw [hp.isConstruction] at hi; cases hi
  | baseNoCodec | base | encuNoCodec | encsNoCodec | opopEmpty | opop => rfl
  | encu _ hu => exact (frame_of_output_rest (emitDigits_frame hu)).1
  | encs _ hu => exact (frame_of_output_rest (emitSigned_frame hu)).1
  | dbeguNoCodec | dbegu | dbegsNoCodec | dbegs => rfl
  | dcharNoSession | dcharLatched | dcharSign | dcharUnknown | dcharOverflow | dcharDigit => rfl
  | dendNoSession => rfl
  | dend => exact (sessionResult_frame _).1

/-- Only the encoder's commands touch the output. -/
theorem Answers.outputPart_eq (h : Answers i s t)
    (hi : isConstruction i = true ∨ isDecoder i = true ∨ i = .base) : t.outputPart = s.outputPart := by
  cases h with
  | abegin | apushNoBuild | apushRepeat | apushNew | apushBeyond => rfl
  | acommitNoBuild | acommitSize | acommitRepeat | acommitOk | ldlowerIllegal | ldupperIllegal => rfl
  | preset hp => exact (hp.loaded s).frame.1
  | baseNoCodec | base => rfl
  | encuNoCodec | encu | encsNoCodec | encs | opopEmpty | opop => simp [Machine.isConstruction, isDecoder] at hi
  | dbeguNoCodec | dbegu | dbegsNoCodec | dbegs => rfl
  | dcharNoSession | dcharLatched | dcharSign | dcharUnknown | dcharOverflow | dcharDigit => rfl
  | dendNoSession => rfl
  | dend => exact (sessionResult_frame _).2.1

/-- The commands of the other two units leave the session's registers; `clear_codec()` closes the session, and nothing
else of theirs touches DACT. -/
theorem Answers.session_eq (h : Answers i s t) (hi : isDecoder i = false) :
    t.sessionPart = s.sessionPart ∧ t.dact = if clearsCodec i then false else s.dact := by
  cases h with
  | abegin | ldlowerIllegal | ldupperIllegal => exact ⟨rfl, rfl⟩
  | apushNoBuild | apushRepeat | apushNew | apushBeyond => exact ⟨rfl, rfl⟩
  | acommitNoBuild | acommitSize | acommitRepeat | acommitOk => exact ⟨rfl, rfl⟩
  | preset hp =>
    obtain ⟨-, hs, hd⟩ := (hp.loaded s).frame
    exact ⟨hs, hd.trans (if_pos hp.clearsCodec).symm⟩
  | baseNoCodec | base | encuNoCodec | encsNoCodec | opopEmpty | opop => exact ⟨rfl, rfl⟩
  | encu _ hu => exact (frame_of_output_rest (emitDigits_frame hu)).2
  | encs _ hu => exact (frame_of_output_rest (emitSigned_frame hu)).2
  | dbeguNoCodec | dbegu | dbegsNoCodec | dbegs => cases hi
  | dcharNoSession | dcharLatched | dcharSign | dcharUnknown | dcharOverflow | dcharDigit => cases hi
  | dendNoSession | dend => cases hi

/-- Settles O32: the frame of the codec part. -/
theorem otherCommandsKeepTheCodec : Obligations.OtherCommandsKeepTheCodec := by
  intro i s t hi h
  obtain ⟨hv, hr, hb, hn, hd, ha, hrv, hrd⟩ := codecPart_eq_iff.mp ((answers_of_exec h).codecPart_eq hi)
  exact ⟨hv, hr, hb, hn, hd, fun a => by rw [ha], fun b => by rw [hrv], fun b => by rw [hrd]⟩

/-- Settles O34: the frame of the session part. -/
theorem otherCommandsKeepTheSession : Obligations.OtherCommandsKeepTheSession := by
  intro i s t hi h
  obtain ⟨hp, hda⟩ := (answers_of_exec h).session_eq hi
  obtain ⟨hsg, hf, hn, ha, hacc, he⟩ := sessionPart_eq_iff.mp hp
  exact ⟨hsg, hf, hn, ha, hacc, he, by simpa only [clearsCodec_iff] using hda⟩

end Sys2Proof.Machine
end

section
/-! SUPPORT. The invariants (10_state.md R44, R45), split along the parts of the state; each command keeps those of its
own unit, and the frames carry the others. -/

namespace Sys2Proof.Machine

variable {i : Instr} {s t u : State}

/-! ## The invariants of each part -/

/-- The invariants of the codec and the builder: R44, R45 (d), (f), (h). -/
structure CodecInv (s : State) : Prop where
  alphaWf : s.alpha.wf Config.tableDepth = true
  rlutVWf : s.rlutV.wf Config.tableDepth = true
  rlutDWf : s.rlutD.wf Config.tableDepth = true
  codec : s.valid = true → ∃ A, HoldsCodec s s.radix.toNat A
  buildAlone : s.build = true → s.valid = false
  radixZero : s.valid = false → s.radix = 0
  acntMax : s.acnt.toNat ≤ 257
  building : s.build = true → HoldsBuild s

/-- The invariants of the output buffer: R45 (g), and that the output held was written (R48). -/
structure OutputInv (s : State) : Prop where
  obufWf : s.obuf.wf Config.outDepth = true
  oposMax : s.opos.toNat ≤ 65
  output : ∀ i, s.opos.toNat ≤ i → i < Config.outDepth → s.obuf.read i ≠ none

/-- The invariants of the session's registers: R45 (i), and how the flags of an open session go together. -/
structure SessionInv (s : State) : Prop where
  derrLegal : s.derr = 0 ∨ s.derr = 4 ∨ s.derr = 5
  latched : s.dact = true → s.derr ≠ 0 → s.dany = true
  fresh : s.dact = true → s.dfirst = true → s.dneg = false ∧ s.dany = false ∧ s.derr = 0
  noDigit : s.dact = true → s.dany = false → s.dacc = 0
  signSigned : s.dact = true → s.dneg = true → s.dsgn = true

/-- The invariants are those of the parts and R45 (e), which ties the session to the codec. -/
theorem inv_iff : Inv s ↔ CodecInv s ∧ OutputInv s ∧ SessionInv s ∧ (s.dact = true → s.valid = true) := by
  constructor
  · intro h
    exact ⟨⟨h.alphaWf, h.rlutVWf, h.rlutDWf, h.codec, fun hb => (h.buildAlone hb).1, h.radixZero, h.acntMax,
        h.building⟩,
      ⟨h.obufWf, h.oposMax, h.output⟩, ⟨h.derrLegal, h.latched, h.fresh, h.noDigit, h.signSigned⟩,
      fun hd => (h.sessionHasCodec hd).1⟩
  · rintro ⟨hc, ho, hs, hv⟩
    have hbd : s.build = true → s.dact = false := by
      intro hb
      by_contra hd
      have := hv (by simpa using hd)
      rw [hc.buildAlone hb] at this
      cases this
    have hdb : s.dact = true → s.build = false := by
      intro hd
      by_contra hb
      rw [hbd (by simpa using hb)] at hd
      cases hd
    exact
      { alphaWf := hc.alphaWf
        rlutVWf := hc.rlutVWf
        rlutDWf := hc.rlutDWf
        obufWf := ho.obufWf
        codec := hc.codec
        buildAlone := fun hb => ⟨hc.buildAlone hb, hbd hb⟩
        sessionHasCodec := fun hd => ⟨hv hd, hdb hd⟩
        radixZero := hc.radixZero
        oposMax := ho.oposMax
        acntMax := hc.acntMax
        derrLegal := hs.derrLegal
        building := hc.building
        output := ho.output
        latched := hs.latched
        fresh := hs.fresh
        noDigit := hs.noDigit
        signSigned := hs.signSigned }

/-! ## Each part's invariants depend on that part only -/

theorem HoldsCodec.congr {r : Nat} {A : Nat → Byte} (h : HoldsCodec s r A) (hp : t.codecPart = s.codecPart) :
    HoldsCodec t r A := by
  obtain ⟨hv, hr, -, -, -, ha, hrv, hrd⟩ := codecPart_eq_iff.mp hp
  exact
    { valid := hv.trans h.valid
      radix := hr ▸ h.radix
      radixMin := h.radixMin
      radixMax := h.radixMax
      alpha := ha ▸ h.alpha
      distinct := h.distinct
      present := hrv ▸ hrd ▸ h.present
      absent := hrv ▸ h.absent }

theorem HoldsBuild.congr (h : HoldsBuild s) (hp : t.codecPart = s.codecPart) : HoldsBuild t := by
  obtain ⟨-, -, -, hn, hd, ha, hrv, hrd⟩ := codecPart_eq_iff.mp hp
  have hc : considered t = considered s := by rw [considered, hn]; rfl
  exact
    { cleared := hrv ▸ h.cleared
      present := by rw [hd, hc, ha, hrv, hrd]; exact h.present
      absent := by rw [hd, hc, ha, hrv]; exact h.absent }

theorem CodecInv.congr (h : CodecInv s) (hp : t.codecPart = s.codecPart) : CodecInv t := by
  obtain ⟨hv, hr, hb, hn, -, ha, hrv, hrd⟩ := codecPart_eq_iff.mp hp
  exact
    { alphaWf := ha ▸ h.alphaWf
      rlutVWf := hrv ▸ h.rlutVWf
      rlutDWf := hrd ▸ h.rlutDWf
      codec := by
        rw [hv, hr]
        intro hval
        obtain ⟨A, hA⟩ := h.codec hval
        exact ⟨A, hA.congr hp⟩
      buildAlone := by rw [hb, hv]; exact h.buildAlone
      radixZero := by rw [hv, hr]; exact h.radixZero
      acntMax := hn ▸ h.acntMax
      building := by
        rw [hb]
        intro hbuild
        exact (h.building hbuild).congr hp }

theorem OutputInv.congr (h : OutputInv s) (hp : t.outputPart = s.outputPart) : OutputInv t := by
  obtain ⟨hb, ho⟩ := outputPart_eq_iff.mp hp
  exact ⟨hb ▸ h.obufWf, ho ▸ h.oposMax, by rw [hb, ho]; exact h.output⟩

/-- Closing a session, or leaving it as it is, keeps the session's invariants. -/
theorem SessionInv.congr (h : SessionInv s) (hp : t.sessionPart = s.sessionPart)
    (hda : t.dact = true → s.dact = true) : SessionInv t := by
  obtain ⟨hsg, hf, hn, ha, hacc, he⟩ := sessionPart_eq_iff.mp hp
  exact
    { derrLegal := he ▸ h.derrLegal
      latched := by rw [he, ha]; exact fun hd => h.latched (hda hd)
      fresh := by rw [hf, hn, ha, he]; exact fun hd => h.fresh (hda hd)
      noDigit := by rw [ha, hacc]; exact fun hd => h.noDigit (hda hd)
      signSigned := by rw [hn, hsg]; exact fun hd => h.signSigned (hda hd) }

/-! ## The codec and the builder -/

/-- `clear_codec()` leaves an empty builder, with BUILD as given (40_alphabet.md R101, R102). -/
theorem CodecInv.clearCodec (h : CodecInv s) (b : Bool) : CodecInv { clearCodec s with build := b } where
  alphaWf := h.alphaWf
  rlutVWf := Memory.wf_fill _ _
  rlutDWf := h.rlutDWf
  codec := by intro hv; cases hv
  buildAlone := fun _ => rfl
  radixZero := fun _ => rfl
  acntMax := Nat.zero_le _
  building := fun _ =>
    { cleared := fun c hc => by cases (clearCodec_cleared c s).symm.trans hc
      present := by intro _ j hj; simp [considered] at hj
      absent := fun _ c _ => clearCodec_cleared c s }

/-- A preset load leaves a codec (40_alphabet.md R108). -/
theorem IsPreset.holdsCodec {ref : List Byte} {char : Nat → Byte} {n : Nat} (hp : IsPreset i ref char n) (s : State) :
    HoldsCodec (respondOk 0 (loadPreset ref n (clearCodec s))) n char := by
  obtain ⟨hmin, hn, hlen, -, -⟩ := hp.spec
  have hl := hp.loaded s
  exact
    { valid := rfl
      radix := by change (BitVec.ofNat 9 n).toNat = n; rw [BitVec.toNat_ofNat]; omega
      radixMin := hmin
      radixMax := by omega
      alpha := hl.alphaNew
      distinct := fun j k hj hk h => hp.char_injective hj hk h
      present := hl.rlutNew
      absent := fun b hb => (hl.rlutOld b hb).1 }

theorem CodecInv.preset {ref : List Byte} {char : Nat → Byte} {n : Nat} (h : CodecInv s)
    (hp : IsPreset i ref char n) : CodecInv (respondOk 0 (loadPreset ref n (Machine.clearCodec s))) := by
  obtain ⟨-, hn, hlen, -, -⟩ := hp.spec
  have hc := hp.holdsCodec s
  have hrest := (hp.loaded s).rest
  obtain ⟨hwa, hwv, hwd⟩ := setDigits_wf (ref.take n) 0 (Machine.clearCodec s)
    (by simp; omega) h.alphaWf (Memory.wf_fill _ _) h.rlutDWf
  exact
    { alphaWf := hwa
      rlutVWf := hwv
      rlutDWf := hwd
      codec := fun _ => ⟨char, hc.radix.symm ▸ hc⟩
      buildAlone := by intro hb; rw [hrest] at hb; cases hb
      radixZero := by intro hv; cases hv
      acntMax := by rw [hrest]; exact Nat.zero_le _
      building := by intro hb; rw [hrest] at hb; cases hb }

/-- The character pushed takes the digit ACNT, in an alphabet that had no such character (40_alphabet.md R104). -/
theorem HoldsBuild.new {c : Byte} (h : HoldsBuild s) (hn : s.acnt.toNat ≤ 255)
    (hv : s.rlutV.read c.toNat = some 0) :
    HoldsBuild (respondOk 0 { setDigit c s.acnt.toNat s with acnt := countNext s.acnt }) := by
  have hcs : considered s = s.acnt.toNat := by unfold considered; omega
  have hct : considered (respondOk 0 { setDigit c s.acnt.toNat s with acnt := countNext s.acnt }) =
      s.acnt.toNat + 1 := by
    change min (countNext s.acnt).toNat 256 = _
    rw [countNext_toNat]
    omega
  refine ⟨?cleared, ?present, ?absent⟩
  case cleared =>
    intro b
    simp only [respondOk_rlutV, setDigit_rlutV, Memory.read_write]
    split
    · simp
    · exact h.cleared b
  case present =>
    intro hd j hj
    rw [hct] at hj
    simp only [respondOk_alpha, respondOk_rlutV, respondOk_rlutD, setDigit_alpha, setDigit_rlutV, setDigit_rlutD]
    by_cases hja : j = s.acnt.toNat
    · exact ⟨c, by simp [hja], by simp, by simp [hja]⟩
    · obtain ⟨b, hb, hbv, hbd⟩ := h.present hd j (by omega)
      have hne : b.toNat ≠ c.toNat := by
        intro hbc
        rw [hbc, hv] at hbv
        cases hbv
      exact ⟨b, by rw [Memory.read_write_other _ _ hja, hb], by rw [Memory.read_write_other _ _ hne, hbv],
        by rw [Memory.read_write_other _ _ hne, hbd]⟩
  case absent =>
    intro hd b hb
    rw [hct] at hb
    simp only [respondOk_alpha, setDigit_alpha, Memory.read_write] at hb
    have hbc : b ≠ c := by
      rintro rfl
      exact hb s.acnt.toNat (by omega) (if_pos rfl)
    simp only [respondOk_rlutV, setDigit_rlutV]
    rw [Memory.read_write_other _ _ fun hbc' => hbc (BitVec.eq_of_toNat_eq hbc')]
    refine h.absent hd b fun j hj => ?_
    have hbj := hb j (by omega)
    rwa [if_neg (by omega)] at hbj

theorem CodecInv.apushRepeat {n : BitVec 9} (h : CodecInv s) (hb : s.build = true) (hn : n.toNat ≤ 257) :
    CodecInv (respondOk 0 { s with adup := true, acnt := n }) where
  alphaWf := h.alphaWf
  rlutVWf := h.rlutVWf
  rlutDWf := h.rlutDWf
  codec := fun hv => by cases (h.buildAlone hb).symm.trans hv
  buildAlone := h.buildAlone
  radixZero := h.radixZero
  acntMax := hn
  building := fun _ =>
    { cleared := (h.building hb).cleared
      present := by intro hd; cases hd
      absent := by intro hd; cases hd }

theorem CodecInv.apushNew {c : Byte} (h : CodecInv s) (hb : s.build = true) (hn : s.acnt.toNat ≤ 255)
    (hv : s.rlutV.read c.toNat = some 0) :
    CodecInv (respondOk 0 { setDigit c s.acnt.toNat s with acnt := countNext s.acnt }) where
  alphaWf := Memory.wf_write _ (show s.acnt.toNat < 256 by omega) h.alphaWf
  rlutVWf := Memory.wf_write _ c.isLt h.rlutVWf
  rlutDWf := Memory.wf_write _ c.isLt h.rlutDWf
  codec := fun hval => by cases (h.buildAlone hb).symm.trans hval
  buildAlone := h.buildAlone
  radixZero := h.radixZero
  acntMax := by change (countNext s.acnt).toNat ≤ 257; rw [countNext_toNat]; omega
  building := fun _ => (h.building hb).new hn hv

/-- Beyond the tables the count alone moves, and the entries considered are the same (40_alphabet.md R104). -/
theorem CodecInv.apushBeyond (h : CodecInv s) (hb : s.build = true) (hn : 256 ≤ s.acnt.toNat) :
    CodecInv (respondOk 0 { s with acnt := countNext s.acnt }) := by
  have hct : (countNext s.acnt).toNat = 257 := by rw [countNext_saturates hn]; rfl
  have hc : considered (respondOk 0 { s with acnt := countNext s.acnt }) = considered s := by
    change min (countNext s.acnt).toNat 256 = min s.acnt.toNat 256
    omega
  exact
    { alphaWf := h.alphaWf
      rlutVWf := h.rlutVWf
      rlutDWf := h.rlutDWf
      codec := fun hv => by cases (h.buildAlone hb).symm.trans hv
      buildAlone := h.buildAlone
      radixZero := h.radixZero
      acntMax := hct.le
      building := fun _ =>
        { cleared := (h.building hb).cleared
          present := by rw [hc]; exact (h.building hb).present
          absent := by rw [hc]; exact (h.building hb).absent } }

/-- A construction that fails leaves no codec (40_alphabet.md R106). -/
theorem CodecInv.acommitFails (h : CodecInv s) (hb : s.build = true) (e : Status) :
    CodecInv (raise e { s with build := false }) where
  alphaWf := h.alphaWf
  rlutVWf := h.rlutVWf
  rlutDWf := h.rlutDWf
  codec := fun hv => by cases (h.buildAlone hb).symm.trans hv
  buildAlone := by intro hb; cases hb
  radixZero := h.radixZero
  acntMax := h.acntMax
  building := by intro hb; cases hb

/-- The alphabet that the entries of ALPHA spell. -/
def alphabetOf (s : State) (i : Nat) : Byte := (s.alpha.read i).getD 0

/-- The tables of a construction without a repeat are those of a codec (40_alphabet.md R106). -/
theorem HoldsBuild.holdsCodec (h : HoldsBuild s) (hmin : 2 ≤ s.acnt.toNat) (hmax : s.acnt.toNat ≤ 256)
    (hd : s.adup = false) :
    HoldsCodec (respondOk 0 { s with build := false, radix := s.acnt, valid := true }) s.acnt.toNat
      (alphabetOf s) := by
  have hc : considered s = s.acnt.toNat := by unfold considered; omega
  have hentry : ∀ j, j < s.acnt.toNat → s.alpha.read j = some (alphabetOf s j) ∧
      s.rlutV.read (alphabetOf s j).toNat = some 1 ∧
      s.rlutD.read (alphabetOf s j).toNat = some (BitVec.ofNat 8 j) := by
    intro j hj
    obtain ⟨c, ha, hv, hr⟩ := h.present hd j (by omega)
    have hA : alphabetOf s j = c := by rw [alphabetOf, ha]; rfl
    rw [hA]
    exact ⟨ha, hv, hr⟩
  refine
    { valid := rfl
      radix := rfl
      radixMin := hmin
      radixMax := hmax
      alpha := fun j hj => (hentry j hj).1
      distinct := ?distinct
      present := fun j hj => (hentry j hj).2
      absent := ?absent }
  case distinct =>
    intro j k hj hk hjk
    have hdj := (hentry j hj).2.2
    rw [hjk, (hentry k hk).2.2] at hdj
    have hnum := congrArg BitVec.toNat (Option.some.inj hdj)
    simp only [BitVec.toNat_ofNat] at hnum
    omega
  case absent =>
    intro b hb
    refine h.absent hd b fun j hj hjb => hb j (by omega) ?_
    rw [alphabetOf, hjb]
    rfl

theorem CodecInv.acommitOk (h : CodecInv s) (hb : s.build = true) (hmin : 2 ≤ s.acnt.toNat)
    (hmax : s.acnt.toNat ≤ 256) (hd : s.adup = false) :
    CodecInv (respondOk 0 { s with build := false, radix := s.acnt, valid := true }) where
  alphaWf := h.alphaWf
  rlutVWf := h.rlutVWf
  rlutDWf := h.rlutDWf
  codec := fun _ => ⟨alphabetOf s, (h.building hb).holdsCodec hmin hmax hd⟩
  buildAlone := by intro hb; cases hb
  radixZero := by intro hv; cases hv
  acntMax := h.acntMax
  building := by intro hb; cases hb

/-- Every command keeps the invariants of the codec and the builder. -/
theorem Answers.codecInv (ha : Answers i s t) (h : CodecInv s) : CodecInv t := by
  cases hi : isConstruction i with
  | false => exact h.congr (ha.codecPart_eq hi)
  | true =>
    have hcount : (countNext s.acnt).toNat ≤ 257 := by rw [countNext_toNat]; omega
    cases ha with
    | abegin => exact (h.clearCodec true).congr rfl
    | apushNoBuild | acommitNoBuild => exact h.congr rfl
    | apushRepeat hb hn hv => exact h.apushRepeat hb hcount
    | apushNew hb hn hv => exact h.apushNew hb hn hv
    | apushBeyond hb hn => exact h.apushBeyond hb hn
    | acommitSize hb hn => exact h.acommitFails hb _
    | acommitRepeat hb hmin hmax hd => exact h.acommitFails hb _
    | acommitOk hb hmin hmax hd => exact h.acommitOk hb hmin hmax hd
    | preset hp => exact h.preset hp
    | ldlowerIllegal hn | ldupperIllegal hn => exact (h.clearCodec false).congr rfl
    | _ => cases hi

/-! ## The output buffer -/

/-- An encode leaves the output it stored, all of it written (41_encode.md R122, R124). -/
theorem OutputInv.emitted {str : List Byte} (h : OutputInv s) (he : Emitted str { s with opos := 65 } u) :
    OutputInv (respondLength u) := by
  have hpos : u.opos.toNat + str.length = 65 := he.position
  refine ⟨he.wf h.obufWf (le_refl 65), by simp only [respondLength_opos]; omega, ?_⟩
  intro a ha ha'
  simp only [respondLength_opos, respondLength_obuf, Config.outDepth] at ha ha' ⊢
  have hchar := he.chars (a - u.opos.toNat) (by omega)
  rw [show u.opos.toNat + (a - u.opos.toNat) = a by omega, List.getElem?_eq_getElem (by omega)] at hchar
  simp [hchar]

/-- OPOS moves up by one while output is held (41_encode.md R128). -/
theorem opos_next {p : BitVec 7} (h : p.toNat < 65) : (p + 1).toNat = p.toNat + 1 := by
  rw [BitVec.toNat_add, show (1 : BitVec 7).toNat = 1 from rfl]
  omega

theorem OutputInv.opop (h : OutputInv s) (ho : s.opos.toNat < 65) (d : Value) :
    OutputInv (respondOk d { s with opos := s.opos + 1 }) := by
  have hpos := opos_next ho
  refine ⟨h.obufWf, hpos.le.trans ho, fun a ha => h.output a ?_⟩
  change (s.opos + 1).toNat ≤ a at ha
  omega

/-- Every command keeps the invariants of the output buffer. -/
theorem Answers.outputInv (ha : Answers i s t) (hc : CodecInv s) (h : OutputInv s) : OutputInv t := by
  by_cases hi : isConstruction i = true ∨ isDecoder i = true ∨ i = .base
  · exact h.congr (ha.outputPart_eq hi)
  · cases ha with
    | encuNoCodec | encsNoCodec | opopEmpty => exact h.congr rfl
    | encu hv hu =>
      obtain ⟨A, hA⟩ := hc.codec hv
      obtain ⟨u', hu', hem⟩ := emitDigits_spec A _ s hA.radixMin hA.radixMax hA.alpha
      cases hu.symm.trans hu'
      exact h.emitted hem
    | encs hv hu =>
      obtain ⟨A, hA⟩ := hc.codec hv
      obtain ⟨u', hu', hem⟩ := emitSigned_spec A _ s hA.radixMin hA.radixMax hA.alpha
      cases hu.symm.trans hu'
      exact h.emitted hem
    | opop ho _ => exact h.opop ho _
    | preset hp => exact absurd (.inl hp.isConstruction) hi
    | _ => simp [isConstruction, isDecoder] at hi

/-! ## The session -/

theorem sessionInv_openSession (g : Bool) (d : Value) (s : State) : SessionInv (respondOk d (openSession g s)) where
  derrLegal := .inl rfl
  latched := fun _ he => absurd rfl he
  fresh := fun _ _ => ⟨rfl, rfl, rfl⟩
  noDigit := fun _ _ => rfl
  signSigned := by intro _ hn; cases hn

/-- The sign is taken in a signed session only, and is no digit (42_decode.md R146). -/
theorem SessionInv.dcharSign {c : Byte} (h : SessionInv s) (hda : s.dact = true) (he : s.derr = 0)
    (hsg : takesSign s.dsgn s.dfirst c = true) :
    SessionInv (respondOk 0 { s with dneg := true, dfirst := false }) where
  derrLegal := h.derrLegal
  latched := fun _ hne => absurd he hne
  fresh := by intro _ hf; cases hf
  noDigit := fun _ => h.noDigit hda
  signSigned := fun _ _ => ((takesSign_iff _ _ _).mp hsg).1

/-- A character other than the sign: whatever it leaves in DACC and DERR, DANY is set (42_decode.md R146). -/
theorem SessionInv.dcharOther (h : SessionInv s) (hda : s.dact = true)
    (ht : t = { s with dfirst := false, dany := true, dacc := t.dacc, derr := t.derr, rspOut := t.rspOut })
    (he : t.derr = 0 ∨ t.derr = 4 ∨ t.derr = 5) : SessionInv t where
  derrLegal := he
  latched := by rw [ht]; exact fun _ _ => rfl
  fresh := by rw [ht]; intro _ hf; cases hf
  noDigit := by rw [ht]; intro _ ha; cases ha
  signSigned := by rw [ht]; exact fun _ => h.signSigned hda

/-- Every command keeps the invariants of the session. -/
theorem Answers.sessionInv (ha : Answers i s t) (h : SessionInv s) : SessionInv t := by
  cases hi : isDecoder i with
  | false =>
    obtain ⟨hp, hda⟩ := ha.session_eq hi
    refine h.congr hp fun ht => ?_
    rw [hda] at ht
    split at ht
    · cases ht
    · exact ht
  | true =>
    cases ha with
    | dbeguNoCodec | dbegsNoCodec | dcharNoSession | dcharLatched | dendNoSession => exact h.congr rfl id
    | dbegu | dbegs => exact sessionInv_openSession _ _ s
    | dcharSign hda he hsg => exact h.dcharSign hda he hsg
    | dcharUnknown hda => exact h.dcharOther hda rfl (.inr (.inl rfl))
    | dcharOverflow hda => exact h.dcharOther hda rfl (.inr (.inr rfl))
    | dcharDigit hda he => exact h.dcharOther hda rfl (.inl he)
    | dend =>
      obtain ⟨-, -, hp, hda⟩ := sessionResult_frame { s with dact := false }
      exact h.congr hp fun ht => by rw [hda] at ht; cases ht
    | preset hp => cases hp <;> cases hi
    | _ => cases hi

/-- A session stays tied to its codec: what removes the codec closes the session (10_state.md R45 (e)). -/
theorem Answers.sessionHasCodec (ha : Answers i s t) (h : s.dact = true → s.valid = true) (ht : t.dact = true) :
    t.valid = true := by
  cases hi : isConstruction i with
  | false =>
    have hv := (codecPart_eq_iff.mp (ha.codecPart_eq hi)).1
    cases hd : isDecoder i with
    | false =>
      obtain ⟨-, hda⟩ := ha.session_eq hd
      rw [hda] at ht
      split at ht
      · cases ht
      · exact hv.trans (h ht)
    | true =>
      cases ha with
      | dbeguNoCodec | dbegsNoCodec | dcharNoSession | dcharLatched | dendNoSession => exact h ht
      | dbegu hval | dbegs hval => exact hval
      | dcharSign hda | dcharUnknown hda | dcharOverflow hda | dcharDigit hda => exact h hda
      | dend => rw [(sessionResult_frame _).2.2.2] at ht; cases ht
      | preset hp => cases hp <;> cases hd
      | _ => cases hd
  | true =>
    cases ha with
    | abegin | ldlowerIllegal | ldupperIllegal => cases ht
    | apushNoBuild | apushRepeat | apushNew | apushBeyond => exact h ht
    | acommitNoBuild | acommitSize | acommitRepeat => exact h ht
    | acommitOk | preset => rfl
    | _ => cases hi

/-! ## The invariants of the whole state -/

/-- Every command keeps the invariants. -/
theorem Answers.inv (ha : Answers i s t) (h : Inv s) : Inv t := by
  obtain ⟨hc, ho, hs, hv⟩ := inv_iff.mp h
  exact inv_iff.mpr ⟨ha.codecInv hc, ha.outputInv hc ho, ha.sessionInv hs, ha.sessionHasCodec hv⟩

/-- The invariants do not speak of the channels. -/
theorem Inv.channels (h : Inv s) (hc : t.codecPart = s.codecPart) (ho : t.outputPart = s.outputPart)
    (hs : t.sessionPart = s.sessionPart) (hda : t.dact = s.dact) : Inv t := by
  obtain ⟨hci, hoi, hsi, hv⟩ := inv_iff.mp h
  refine inv_iff.mpr ⟨hci.congr hc, hoi.congr ho, hsi.congr hs fun ht => hda ▸ ht, fun ht => ?_⟩
  rw [(codecPart_eq_iff.mp hc).1]
  exact hv (hda ▸ ht)

/-- Settles O39: every register of the reset state is within its bounds, no codec is loaded and nothing is open. -/
theorem invariantHoldsAtReset : Obligations.InvariantHoldsAtReset where
  alphaWf := rfl
  rlutVWf := rfl
  rlutDWf := rfl
  obufWf := rfl
  codec := by intro h; cases h
  buildAlone := by intro h; cases h
  sessionHasCodec := by intro h; cases h
  radixZero := fun _ => rfl
  oposMax := le_refl 65
  acntMax := Nat.zero_le _
  derrLegal := .inl rfl
  building := by intro h; cases h
  output := fun _ hmin hmax => absurd hmax (Nat.not_lt.mpr hmin)
  latched := by intro h; cases h
  fresh := by intro h; cases h
  noDigit := by intro h; cases h
  signSigned := by intro h; cases h

/-- Settles O40: each of the host's actions keeps the invariants; for a command that is `Answers.inv`. -/
theorem stepKeepsTheInvariant : Obligations.StepKeepsTheInvariant := by
  intro s t h hstep
  cases stepAnswers_of_step hstep with
  | waits => exact h
  | command _ _ ha => exact ha.inv (h.channels rfl rfl rfl rfl)
  | illegal => exact h.channels rfl rfl rfl rfl
  | reset | cut => exact Inv.channels invariantHoldsAtReset rfl rfl rfl rfl

end Sys2Proof.Machine
end

section
/-! SUPPORT. Under the invariants every command completes: each entry it reads was written (10_state.md R48), and the
output buffer suffices (41_encode.md R126). -/

namespace Sys2Proof.Machine

variable {s : State}

/-- What RLUT says of a character when a codec is loaded: its digit, or that it is not in the alphabet
(10_state.md R44). -/
theorem HoldsCodec.lookup {r : Nat} {A : Nat → Byte} (h : HoldsCodec s r A) (c : Byte) :
    (∃ j, j < r ∧ A j = c ∧ s.rlutV.read c.toNat = some 1 ∧ s.rlutD.read c.toNat = some (BitVec.ofNat 8 j)) ∨
    ((∀ j, j < r → A j ≠ c) ∧ s.rlutV.read c.toNat = some 0) := by
  by_cases hc : ∀ j, j < r → A j ≠ c
  · exact .inr ⟨hc, h.absent c hc⟩
  · push Not at hc
    obtain ⟨j, hj, rfl⟩ := hc
    exact .inl ⟨j, hj, rfl, h.present j hj⟩

theorem Inv.apush_completes (h : Inv s) (c : Byte) : ∃ t, Answers (.apush c) s t := by
  cases hb : s.build with
  | false => exact ⟨_, .apushNoBuild hb⟩
  | true =>
    by_cases hn : s.acnt.toNat ≤ 255
    · obtain ⟨v, hv⟩ := Option.ne_none_iff_exists'.mp ((h.building hb).cleared c)
      obtain rfl | rfl := BitVec.eq_zero_or_eq_one v
      · exact ⟨_, .apushNew hb hn hv⟩
      · exact ⟨_, .apushRepeat hb hn hv⟩
    · exact ⟨_, .apushBeyond hb (by omega)⟩

theorem acommit_completes (s : State) : ∃ t, Answers .acommit s t := by
  cases hb : s.build with
  | false => exact ⟨_, .acommitNoBuild hb⟩
  | true =>
    by_cases hn : s.acnt.toNat < 2 ∨ 256 < s.acnt.toNat
    · exact ⟨_, .acommitSize hb hn⟩
    · cases hd : s.adup with
      | true => exact ⟨_, .acommitRepeat hb (by omega) (by omega) hd⟩
      | false => exact ⟨_, .acommitOk hb (by omega) (by omega) hd⟩

theorem Inv.encu_completes (h : Inv s) (n : Value) : ∃ t, Answers (.encu n) s t := by
  cases hv : s.valid with
  | false => exact ⟨_, .encuNoCodec hv⟩
  | true =>
    obtain ⟨A, hA⟩ := h.codec hv
    obtain ⟨u, hu, -⟩ := emitDigits_spec A n s hA.radixMin hA.radixMax hA.alpha
    exact ⟨_, .encu hv hu⟩

theorem Inv.encs_completes (h : Inv s) (n : Value) : ∃ t, Answers (.encs n) s t := by
  cases hv : s.valid with
  | false => exact ⟨_, .encsNoCodec hv⟩
  | true =>
    obtain ⟨A, hA⟩ := h.codec hv
    obtain ⟨u, hu, -⟩ := emitSigned_spec A n s hA.radixMin hA.radixMax hA.alpha
    exact ⟨_, .encs hv hu⟩

theorem Inv.opop_completes (h : Inv s) : ∃ t, Answers .opop s t := by
  by_cases ho : s.opos = 65
  · exact ⟨_, .opopEmpty ho⟩
  · have hne : s.opos.toNat ≠ 65 := fun heq => ho (BitVec.eq_of_toNat_eq heq)
    have hlt : s.opos.toNat < 65 := lt_of_le_of_ne h.oposMax hne
    obtain ⟨c, hc⟩ := Option.ne_none_iff_exists'.mp (h.output s.opos.toNat (le_refl _) hlt)
    exact ⟨_, .opop hlt hc⟩

theorem Inv.dchar_completes (h : Inv s) (c : Byte) : ∃ t, Answers (.dchar c) s t := by
  cases hda : s.dact with
  | false => exact ⟨_, .dcharNoSession hda⟩
  | true =>
    by_cases he : s.derr = 0
    · cases hsg : takesSign s.dsgn s.dfirst c with
      | true => exact ⟨_, .dcharSign hda he hsg⟩
      | false =>
        obtain ⟨A, hA⟩ := h.codec (h.sessionHasCodec hda).1
        obtain ⟨j, -, -, hv, hd⟩ | ⟨-, hv⟩ := hA.lookup c
        · rcases Nat.lt_or_ge (s.dacc.toNat * s.radix.toNat + (BitVec.ofNat 8 j).toNat) (2 ^ 64) with hov | hov
          · exact ⟨_, .dcharDigit hda he hsg hv hd hov⟩
          · exact ⟨_, .dcharOverflow hda he hsg hv hd hov⟩
        · exact ⟨_, .dcharUnknown hda he hsg hv⟩
    · exact ⟨_, .dcharLatched hda he⟩

/-- Every command completes in every state with the invariants. -/
theorem Inv.answers (h : Inv s) (i : Instr) : ∃ t, Answers i s t := by
  cases i with
  | abegin => exact ⟨_, .abegin⟩
  | apush c => exact h.apush_completes c
  | acommit => exact acommit_completes s
  | ldlower n => exact ⟨_, answers_ldlower n s⟩
  | ldupper n => exact ⟨_, answers_ldupper n s⟩
  | ldb64 => exact ⟨_, .preset .b64⟩
  | base =>
    cases hv : s.valid with
    | false => exact ⟨_, .baseNoCodec hv⟩
    | true => exact ⟨_, .base hv⟩
  | encu n => exact h.encu_completes n
  | encs n => exact h.encs_completes n
  | opop => exact h.opop_completes
  | dbegu =>
    cases hv : s.valid with
    | false => exact ⟨_, .dbeguNoCodec hv⟩
    | true => exact ⟨_, .dbegu hv⟩
  | dbegs =>
    cases hv : s.valid with
    | false => exact ⟨_, .dbegsNoCodec hv⟩
    | true => exact ⟨_, .dbegs hv⟩
  | dchar c => exact h.dchar_completes c
  | dend =>
    cases hda : s.dact with
    | false => exact ⟨_, .dendNoSession hda⟩
    | true => exact ⟨_, .dend hda⟩

/-- Settles O41: whatever the host's next action is, it has an answer; for a command that is `Inv.answers`. -/
theorem stepCompletesUnderTheInvariant : Obligations.StepCompletesUnderTheInvariant := by
  intro s h
  cases hc : s.cmdIn with
  | nil => exact ⟨_, (StepAnswers.waits hc).step⟩
  | cons a rest =>
    cases a with
    | command w =>
      cases hw : decode w with
      | ok i =>
        have hs : Inv { s with cmdIn := rest } := h.channels rfl rfl rfl rfl
        obtain ⟨t, ht⟩ := hs.answers i
        exact ⟨t, (StepAnswers.command hc hw ht).step⟩
      | error e => exact ⟨_, (StepAnswers.illegal hc hw).step⟩
    | reset => exact ⟨_, (StepAnswers.reset hc).step⟩
    | commandCut w => exact ⟨_, (StepAnswers.cut hc).step⟩

/-- Settles O1: the Reset column of 10_state.md R20. -/
theorem resetLeavesTheStatedRegisterValues : Obligations.ResetLeavesTheStatedRegisterValues := by
  unfold Obligations.ResetLeavesTheStatedRegisterValues
  decide

end Sys2Proof.Machine
end

section
/-! SUPPORT. What the host cannot tell apart: each command, run in two states that agree on what commands read, ends in
the same way and leaves states that agree again (10_state.md R48, 93_implementation_defined.md U2, U3, U4). -/

namespace Sys2Proof.Machine

variable {i : Instr} {s t s' t' u : State}

/-! ## The shared operations -/

theorem SameToHost.respond (h : SameToHost s t) (st : BitVec 4) (d : Value) :
    SameToHost (respond st d s) (respond st d t) :=
  { h with rspOut := congrArg (· ++ [rspWord st d]) h.rspOut }

theorem SameToHost.openSession (h : SameToHost s t) (g : Bool) :
    SameToHost (openSession g s) (openSession g t) :=
  { h with
    dact := rfl
    dsgn := fun _ => rfl
    dfirst := fun _ => rfl
    dneg := fun _ => rfl
    dany := fun _ => rfl
    dacc := fun _ => rfl
    derr := fun _ => rfl }

theorem SameToHost.closeSession (h : SameToHost s t) : SameToHost { s with dact := false } { t with dact := false } :=
  { h with
    dact := rfl
    dsgn := by intro hd; cases hd
    dfirst := by intro hd; cases hd
    dneg := by intro hd; cases hd
    dany := by intro hd; cases hd
    dacc := by intro hd; cases hd
    derr := by intro hd; cases hd }

theorem SameToHost.sessionPart (h : SameToHost s t) (hda : s.dact = true) : t.sessionPart = s.sessionPart :=
  sessionPart_eq_iff.mpr ⟨(h.dsgn hda).symm, (h.dfirst hda).symm, (h.dneg hda).symm, (h.dany hda).symm,
    (h.dacc hda).symm, (h.derr hda).symm⟩

/-- The status and the data DEND answers, from the session's registers (42_decode.md R148). -/
def sessionResponse (p : SessionPart) : BitVec 4 × Value :=
  if p.derr ≠ 0 then (p.derr, 0)
  else if !p.dany then (statusCode .emptyInput, 0)
  else if !p.dsgn then (statusCode .ok, p.dacc)
  else if signedOverflow p.dacc p.dneg then (statusCode .overflow, 0)
  else if p.dneg then (statusCode .ok, neg64 p.dacc)
  else (statusCode .ok, p.dacc)

theorem sessionResult_eq_respond (s : State) :
    sessionResult s = respond (sessionResponse s.sessionPart).1 (sessionResponse s.sessionPart).2 s := by
  unfold sessionResult sessionResponse State.sessionPart
  split_ifs <;> rfl

/-- DEND answers from the session's registers alone. -/
theorem SameToHost.sessionResult (h : SameToHost s t) (hda : s.dact = true) :
    SameToHost (sessionResult { s with dact := false }) (sessionResult { t with dact := false }) := by
  have hp : { t with dact := false }.sessionPart = { s with dact := false }.sessionPart := h.sessionPart hda
  rw [sessionResult_eq_respond, sessionResult_eq_respond, hp]
  exact h.closeSession.respond _ _

/-- A character other than the sign was taken, and left `acc` in DACC (42_decode.md R146). -/
theorem SameToHost.takeChar (h : SameToHost s t) {acc acc' : Value} (hacc : s.dact = true → acc = acc') :
    SameToHost { s with dfirst := false, dany := true, dacc := acc }
      { t with dfirst := false, dany := true, dacc := acc' } :=
  { h with dfirst := fun _ => rfl, dany := fun _ => rfl, dacc := hacc }

theorem SameToHost.latchError (h : SameToHost s t) (e : Status) : SameToHost (latchError e s) (latchError e t) :=
  { h with derr := fun _ => rfl, rspOut := congrArg (· ++ [_]) h.rspOut }

/-- A codec read in one state is read in the other. -/
theorem SameToHost.alphabet {r : Nat} {A : Nat → Byte} (h : SameToHost s t) (hA : HoldsCodec s r A) :
    2 ≤ t.radix.toNat ∧ t.radix.toNat ≤ 256 ∧ ∀ j, j < t.radix.toNat → t.alpha.read j = some (A j) := by
  have hr : t.radix.toNat = r := h.radix ▸ hA.radix
  rw [hr]
  refine ⟨hA.radixMin, hA.radixMax, fun j hj => ?_⟩
  rw [← h.alpha hA.valid j (hA.radix.symm ▸ hj)]
  exact hA.alpha j hj

/-- Two encodes of one string leave the same output and the same response. -/
theorem SameToHost.outputStored {str : List Byte} (h : SameToHost s t) (hs : OutputStored str s s')
    (ht : OutputStored str t t') : SameToHost s' t' := by
  have hps := hs.position
  have hpt := ht.position
  have hpos : s'.opos = t'.opos := BitVec.eq_of_toNat_eq (by omega)
  rw [hs.rest, ht.rest]
  refine { h with opos := hpos, rspOut := congrArg (· ++ [_]) h.rspOut, obuf := ?_ }
  intro a ha ha'
  have ha : s'.opos.toNat ≤ a := ha
  have ha' : a < 65 := ha'
  have hs' := hs.chars (a - s'.opos.toNat) (by omega)
  have ht' := ht.chars (a - t'.opos.toNat) (by omega)
  rw [show s'.opos.toNat + (a - s'.opos.toNat) = a by omega] at hs'
  rw [show t'.opos.toNat + (a - t'.opos.toNat) = a by omega, ← hpos] at ht'
  exact hs'.trans ht'.symm

/-- `clear_codec()` leaves nothing of the codec and the session to tell states apart by (40_alphabet.md R118). -/
theorem CodecCleared.sameToHost {b : Bool} {e : Status} (hs : CodecCleared b e s s') (ht : CodecCleared b e t t')
    (hpos : s.opos = t.opos) (hbuf : ∀ a, s.opos.toNat ≤ a → a < 65 → s.obuf.read a = t.obuf.read a)
    (hrsp : s.rspOut = t.rspOut) : SameToHost s' t' := by
  rw [hs.rest, ht.rest]
  exact
    { valid := rfl
      radix := rfl
      build := rfl
      opos := hpos
      dact := rfl
      rspOut := congrArg (· ++ [_]) hrsp
      acnt := fun _ => rfl
      adup := fun _ => rfl
      dsgn := by intro hd; cases hd
      dfirst := by intro hd; cases hd
      dneg := by intro hd; cases hd
      dany := by intro hd; cases hd
      dacc := by intro hd; cases hd
      derr := by intro hd; cases hd
      alpha := by intro hv; cases hv
      alphaBuild := by intro _ _ j hj; simp [considered] at hj
      rlutV := fun _ c => (hs.cleared c).trans (ht.cleared c).symm
      rlutD := by intro _ c hc; cases (hs.cleared c).symm.trans hc
      obuf := hbuf }

/-- A preset load leaves nothing of the codec and the session before it (40_alphabet.md R118). -/
theorem PresetLoaded.sameToHost {char : Nat → Byte} {n : Nat} (hs : PresetLoaded char n s s')
    (ht : PresetLoaded char n t t') (hpos : s.opos = t.opos)
    (hbuf : ∀ a, s.opos.toNat ≤ a → a < 65 → s.obuf.read a = t.obuf.read a) (hrsp : s.rspOut = t.rspOut) :
    SameToHost s' t' := by
  rw [hs.rest, ht.rest]
  refine
    { valid := rfl
      radix := rfl
      build := rfl
      opos := hpos
      dact := rfl
      rspOut := congrArg (· ++ [_]) hrsp
      acnt := fun _ => rfl
      adup := fun _ => rfl
      dsgn := by intro hd; cases hd
      dfirst := by intro hd; cases hd
      dneg := by intro hd; cases hd
      dany := by intro hd; cases hd
      dacc := by intro hd; cases hd
      derr := by intro hd; cases hd
      alpha := ?alpha
      alphaBuild := by intro hb; cases hb
      rlutV := ?rlutV
      rlutD := ?rlutD
      obuf := hbuf }
  case alpha =>
    intro _ j hj
    have hj : j < n := hj.trans_le ((BitVec.toNat_ofNat n 9).le.trans (Nat.mod_le _ _))
    exact (hs.alphaNew j hj).trans (ht.alphaNew j hj).symm
  case rlutV =>
    intro _ c
    by_cases hc : ∀ j, j < n → char j ≠ c
    · exact (hs.rlutOld c hc).1.trans (ht.rlutOld c hc).1.symm
    · push Not at hc
      obtain ⟨j, hj, rfl⟩ := hc
      exact (hs.rlutNew j hj).1.trans (ht.rlutNew j hj).1.symm
  case rlutD =>
    intro _ c hv
    by_cases hc : ∀ j, j < n → char j ≠ c
    · cases (hs.rlutOld c hc).1.symm.trans hv
    · push Not at hc
      obtain ⟨j, hj, rfl⟩ := hc
      exact (hs.rlutNew j hj).2.trans (ht.rlutNew j hj).2.symm

/-! ## The builder -/

/-- One write to two memories leaves equal an entry in which they agreed. -/
theorem Memory.read_write_congr {w : Nat} {m m' : Memory w} {a x : Nat} {v : BitVec w} (h : m.read x = m'.read x) :
    (m.write a v).read x = (m'.write a v).read x := by
  rw [Memory.read_write, Memory.read_write, h]

/-- A new character of an open construction (40_alphabet.md R104). -/
theorem SameToHost.apushNew {c : Byte} (h : SameToHost s t) (hb : s.build = true) (hn : s.acnt.toNat ≤ 255) :
    SameToHost { setDigit c s.acnt.toNat s with acnt := countNext s.acnt }
      { setDigit c t.acnt.toNat t with acnt := countNext t.acnt } := by
  rw [← h.acnt hb]
  refine
    { h with
      acnt := fun _ => rfl
      alpha := fun hv j hj => Memory.read_write_congr (h.alpha hv j hj)
      alphaBuild := ?alphaBuild
      rlutV := fun hvb b => Memory.read_write_congr (h.rlutV hvb b)
      rlutD := ?rlutD }
  case alphaBuild =>
    intro _ hd j hj
    change (s.alpha.write s.acnt.toNat c).read j = (t.alpha.write s.acnt.toNat c).read j
    change j < min (countNext s.acnt).toNat 256 at hj
    rw [countNext_toNat] at hj
    by_cases hja : j = s.acnt.toNat
    · rw [hja, Memory.read_write_same, Memory.read_write_same]
    · exact Memory.read_write_congr (h.alphaBuild hb hd j (by unfold considered; omega))
  case rlutD =>
    intro hvb b hv
    change (s.rlutV.write c.toNat 1).read b.toNat = some 1 at hv
    change (s.rlutD.write c.toNat _).read b.toNat = (t.rlutD.write c.toNat _).read b.toNat
    by_cases hbc : b.toNat = c.toNat
    · rw [hbc, Memory.read_write_same, Memory.read_write_same]
    · rw [Memory.read_write_other _ _ hbc] at hv
      exact Memory.read_write_congr (h.rlutD hvb b hv)

/-- A character beyond the tables (40_alphabet.md R104). -/
theorem SameToHost.apushBeyond (h : SameToHost s t) (hb : s.build = true) (hn : 256 ≤ s.acnt.toNat) :
    SameToHost { s with acnt := countNext s.acnt } { t with acnt := countNext t.acnt } :=
  { h with
    acnt := fun _ => congrArg countNext (h.acnt hb)
    alphaBuild := by
      intro _ hd j hj
      change j < min (countNext s.acnt).toNat 256 at hj
      exact h.alphaBuild hb hd j (by unfold considered; omega) }

/-- A construction that fails leaves no codec and nothing open, so the tables are not read again
(40_alphabet.md R106). -/
theorem SameToHost.acommitFails (h : SameToHost s t) (hv : s.valid = false) :
    SameToHost { s with build := false } { t with build := false } :=
  { h with
    build := rfl
    acnt := by intro hb; cases hb
    adup := by intro hb; cases hb
    alphaBuild := by intro hb; cases hb
    rlutV := by
      rintro (hval | hb)
      · cases hv.symm.trans hval
      · cases hb
    rlutD := by
      rintro (hval | hb)
      · cases hv.symm.trans hval
      · cases hb }

/-- The tables the builder compared are those the codec is read from (40_alphabet.md R106). -/
theorem SameToHost.acommitOk (h : SameToHost s t) (hb : s.build = true) (hmax : s.acnt.toNat ≤ 256)
    (hd : s.adup = false) :
    SameToHost { s with build := false, radix := s.acnt, valid := true }
      { t with build := false, radix := t.acnt, valid := true } :=
  { h with
    valid := rfl
    radix := h.acnt hb
    build := rfl
    acnt := by intro hb; cases hb
    adup := by intro hb; cases hb
    alpha := by
      intro _ j hj
      change j < s.acnt.toNat at hj
      exact h.alphaBuild hb hd j (by unfold considered; omega)
    alphaBuild := by intro hb; cases hb
    rlutV := fun _ => h.rlutV (.inr hb)
    rlutD := fun _ => h.rlutD (.inr hb) }

/-! ## The commands -/

/-- The simulation: what a command answers in one state it answers, up to what nothing reads, in the other. -/
theorem Answers.simulate (ha : Answers i s s') (h : Inv s) (hst : SameToHost s t) :
    ∃ t', Answers i t t' ∧ SameToHost s' t' := by
  cases ha with
  | abegin =>
    exact ⟨_, .abegin, CodecCleared.sameToHost (codecCleared_clearCodec true .ok s)
      (codecCleared_clearCodec true .ok t) hst.opos hst.obuf hst.rspOut⟩
  | apushNoBuild hb => exact ⟨_, .apushNoBuild (hst.build ▸ hb), hst.respond _ _⟩
  | @apushRepeat c _ hb hn hv =>
    refine ⟨_, .apushRepeat (hst.build ▸ hb) (hst.acnt hb ▸ hn) (hst.rlutV (.inr hb) c ▸ hv), ?_⟩
    have hr : SameToHost { s with adup := true, acnt := countNext s.acnt }
        { t with adup := true, acnt := countNext t.acnt } :=
      { hst with
        acnt := fun _ => congrArg countNext (hst.acnt hb)
        adup := fun _ => rfl
        alphaBuild := by intro _ hd; cases hd }
    exact hr.respond _ _
  | @apushNew c _ hb hn hv =>
    exact ⟨_, .apushNew (hst.build ▸ hb) (hst.acnt hb ▸ hn) (hst.rlutV (.inr hb) c ▸ hv),
      (hst.apushNew hb hn).respond _ _⟩
  | apushBeyond hb hn =>
    exact ⟨_, .apushBeyond (hst.build ▸ hb) (hst.acnt hb ▸ hn), (hst.apushBeyond hb hn).respond _ _⟩
  | acommitNoBuild hb => exact ⟨_, .acommitNoBuild (hst.build ▸ hb), hst.respond _ _⟩
  | acommitSize hb hn =>
    exact ⟨_, .acommitSize (hst.build ▸ hb) (hst.acnt hb ▸ hn),
      (hst.acommitFails (h.buildAlone hb).1).respond _ _⟩
  | acommitRepeat hb hmin hmax hd =>
    exact ⟨_, .acommitRepeat (hst.build ▸ hb) (hst.acnt hb ▸ hmin) (hst.acnt hb ▸ hmax) (hst.adup hb ▸ hd),
      (hst.acommitFails (h.buildAlone hb).1).respond _ _⟩
  | acommitOk hb hmin hmax hd =>
    exact ⟨_, .acommitOk (hst.build ▸ hb) (hst.acnt hb ▸ hmin) (hst.acnt hb ▸ hmax) (hst.adup hb ▸ hd),
      (hst.acommitOk hb hmax hd).respond _ _⟩
  | preset hp => exact ⟨_, .preset hp, (hp.loaded s).sameToHost (hp.loaded t) hst.opos hst.obuf hst.rspOut⟩
  | ldlowerIllegal hn =>
    exact ⟨_, .ldlowerIllegal hn, CodecCleared.sameToHost (codecCleared_clearCodec false _ s)
      (codecCleared_clearCodec false _ t) hst.opos hst.obuf hst.rspOut⟩
  | ldupperIllegal hn =>
    exact ⟨_, .ldupperIllegal hn, CodecCleared.sameToHost (codecCleared_clearCodec false _ s)
      (codecCleared_clearCodec false _ t) hst.opos hst.obuf hst.rspOut⟩
  | baseNoCodec hv => exact ⟨_, .baseNoCodec (hst.valid ▸ hv), hst.respond _ _⟩
  | base hv =>
    refine ⟨_, .base (hst.valid ▸ hv), ?_⟩
    rw [← hst.radix]
    exact hst.respond _ _
  | encuNoCodec hv => exact ⟨_, .encuNoCodec (hst.valid ▸ hv), hst.respond _ _⟩
  | @encu n _ u hv hu =>
    obtain ⟨A, hA⟩ := h.codec hv
    obtain ⟨u₁, hu₁, hem⟩ := emitDigits_spec A n s hA.radixMin hA.radixMax hA.alpha
    cases hu.symm.trans hu₁
    obtain ⟨hmin, hmax, halpha⟩ := hst.alphabet hA
    obtain ⟨u₂, hu₂, hem₂⟩ := emitDigits_spec A n t hmin hmax halpha
    have hstored₂ := hem₂.outputStored
    rw [← hst.radix] at hstored₂
    exact ⟨_, .encu (hst.valid ▸ hv) hu₂, hst.outputStored hem.outputStored hstored₂⟩
  | encsNoCodec hv => exact ⟨_, .encsNoCodec (hst.valid ▸ hv), hst.respond _ _⟩
  | @encs n _ u hv hu =>
    obtain ⟨A, hA⟩ := h.codec hv
    obtain ⟨u₁, hu₁, hem⟩ := emitSigned_spec A n s hA.radixMin hA.radixMax hA.alpha
    cases hu.symm.trans hu₁
    obtain ⟨hmin, hmax, halpha⟩ := hst.alphabet hA
    obtain ⟨u₂, hu₂, hem₂⟩ := emitSigned_spec A n t hmin hmax halpha
    have hstored₂ := hem₂.outputStored
    rw [← hst.radix] at hstored₂
    exact ⟨_, .encs (hst.valid ▸ hv) hu₂, hst.outputStored hem.outputStored hstored₂⟩
  | opopEmpty ho => exact ⟨_, .opopEmpty (hst.opos ▸ ho), hst.respond _ _⟩
  | opop ho hc =>
    have hpos := opos_next ho
    have hbuf := hst.obuf s.opos.toNat (le_refl _) ho
    rw [hc, hst.opos] at hbuf
    refine ⟨_, .opop (hst.opos ▸ ho) hbuf.symm, ?_⟩
    have hr : SameToHost { s with opos := s.opos + 1 } { t with opos := t.opos + 1 } :=
      { hst with
        opos := congrArg (· + 1) hst.opos
        obuf := by
          intro a ha
          change (s.opos + 1).toNat ≤ a at ha
          exact hst.obuf a (by omega) }
    exact hr.respond _ _
  | dbeguNoCodec hv => exact ⟨_, .dbeguNoCodec (hst.valid ▸ hv), hst.respond _ _⟩
  | dbegu hv => exact ⟨_, .dbegu (hst.valid ▸ hv), (hst.openSession false).respond _ _⟩
  | dbegsNoCodec hv => exact ⟨_, .dbegsNoCodec (hst.valid ▸ hv), hst.respond _ _⟩
  | dbegs hv => exact ⟨_, .dbegs (hst.valid ▸ hv), (hst.openSession true).respond _ _⟩
  | dcharNoSession hda => exact ⟨_, .dcharNoSession (hst.dact ▸ hda), hst.respond _ _⟩
  | dcharLatched hda he =>
    refine ⟨_, .dcharLatched (hst.dact ▸ hda) (hst.derr hda ▸ he), ?_⟩
    rw [← hst.derr hda]
    exact hst.respond _ _
  | dcharSign hda he hsg =>
    rw [hst.dsgn hda, hst.dfirst hda] at hsg
    refine ⟨_, .dcharSign (hst.dact ▸ hda) (hst.derr hda ▸ he) hsg, ?_⟩
    have hr : SameToHost { s with dneg := true, dfirst := false } { t with dneg := true, dfirst := false } :=
      { hst with dneg := fun _ => rfl, dfirst := fun _ => rfl }
    exact hr.respond _ _
  | @dcharUnknown c _ hda he hsg hv =>
    have hvc := (h.sessionHasCodec hda).1
    rw [hst.dsgn hda, hst.dfirst hda] at hsg
    exact ⟨_, .dcharUnknown (hst.dact ▸ hda) (hst.derr hda ▸ he) hsg (hst.rlutV (.inl hvc) c ▸ hv),
      (hst.takeChar hst.dacc).latchError _⟩
  | @dcharOverflow c d _ hda he hsg hv hd hov =>
    have hvc := (h.sessionHasCodec hda).1
    rw [hst.dsgn hda, hst.dfirst hda] at hsg
    rw [hst.dacc hda, hst.radix] at hov
    exact ⟨_, .dcharOverflow (hst.dact ▸ hda) (hst.derr hda ▸ he) hsg (hst.rlutV (.inl hvc) c ▸ hv)
      (hst.rlutD (.inl hvc) c hv ▸ hd) hov, (hst.takeChar hst.dacc).latchError _⟩
  | @dcharDigit c d _ hda he hsg hv hd hov =>
    have hvc := (h.sessionHasCodec hda).1
    rw [hst.dsgn hda, hst.dfirst hda] at hsg
    rw [hst.dacc hda, hst.radix] at hov
    refine ⟨_, .dcharDigit (hst.dact ▸ hda) (hst.derr hda ▸ he) hsg (hst.rlutV (.inl hvc) c ▸ hv)
      (hst.rlutD (.inl hvc) c hv ▸ hd) hov, ?_⟩
    exact (hst.takeChar fun _ => by rw [hst.dacc hda, hst.radix]).respond _ _
  | dendNoSession hda => exact ⟨_, .dendNoSession (hst.dact ▸ hda), hst.respond _ _⟩
  | dend hda => exact ⟨_, .dend (hst.dact ▸ hda), hst.sessionResult hda⟩

/-- Settles O43: the simulation, and that a command has one answer. -/
theorem indistinguishableStatesStaySo : Obligations.IndistinguishableStatesStaySo := by
  intro i s t s' t' hs _ hst hs' ht'
  obtain ⟨u, hu, hsu⟩ := (answers_of_exec hs').simulate hs hst
  rwa [(answers_of_exec ht').unique hu]

end Sys2Proof.Machine
end

section
/-! SUPPORT. The accumulator of a decode session (10_state.md R45 (j), 42_decode.md R150, R154). -/

namespace Sys2Proof.Machine

variable {s t : State} {r : Nat} {A : Nat → Byte}

/-! ## Lists of commands -/

theorem runInstrs_cons {i : Instr} {is : List Instr} (h : Answers i s t) :
    runInstrs (i :: is) s = runInstrs is t := by
  simp only [runInstrs, h.exec]

/-- Once an error is latched the further characters of a session change nothing but the responses
(42_decode.md R154). -/
theorem runInstrs_dchar_latched (str : List Byte) : ∀ s : State, s.dact = true → s.derr ≠ 0 →
    runInstrs (str.map .dchar) s =
      .next { s with rspOut := s.rspOut ++ List.replicate str.length (rspWord s.derr 0) } := by
  induction str with
  | nil => intro s _ _; simp [runInstrs]
  | cons c w ih =>
    intro s hda he
    rw [List.map_cons, runInstrs_cons (.dcharLatched hda he), ih (respond s.derr 0 s) hda he]
    simp [respond, List.replicate_succ]

/-! ## The value of a string of digits -/

/-- The digit a lookup finds is below the radix and is the character's (42_decode.md R156). -/
theorem lookupIn_some {c : Byte} {d : Nat} (h : lookupIn r A c = some d) : d < r ∧ A d = c := by
  have hmem := List.mem_range.mp (List.mem_of_find?_eq_some h)
  exact ⟨hmem, by simpa using List.find?_some h⟩

/-- More digits never make the value smaller (42_decode.md R150). -/
theorem le_of_valueFrom {L : Byte → Option Nat} (hr : 1 ≤ r) (str : List Byte) :
    ∀ {a v : Nat}, valueFrom r L a str = some v → a ≤ v := by
  induction str with
  | nil => intro a v h; exact (Option.some.inj h).le
  | cons c w ih =>
    intro a v h
    simp only [valueFrom] at h
    split at h
    · cases h
    · rename_i d _
      calc a ≤ a * r := Nat.le_mul_of_pos_right a hr
        _ ≤ a * r + d := Nat.le_add_right _ d
        _ ≤ v := ih h

/-- RLUT answers the digit of the lookup (10_state.md R44). -/
theorem HoldsCodec.rlut_of_lookup (h : HoldsCodec s r A) {c : Byte} {d : Nat} (hd : lookupIn r A c = some d) :
    s.rlutV.read c.toNat = some 1 ∧ s.rlutD.read c.toNat = some (BitVec.ofNat 8 d) ∧
      (BitVec.ofNat 8 d : Byte).toNat = d := by
  obtain ⟨hlt, rfl⟩ := lookupIn_some hd
  obtain ⟨hv, hdig⟩ := h.present d hlt
  have hmax := h.radixMax
  exact ⟨hv, hdig, by rw [BitVec.toNat_ofNat]; omega⟩

/-! ## The session -/

/-- An unsigned session whose accumulator is `a`, with no error so far. -/
structure Accumulating (s : State) (r : Nat) (A : Nat → Byte) (a : Nat) : Prop where
  codec : HoldsCodec s r A
  dact : s.dact = true
  dsgn : s.dsgn = false
  derr : s.derr = 0
  dacc : s.dacc.toNat = a

/-- What DACC and DERR say of the value `v` of the digits taken: exact below 2^64, Overflow from there on. -/
structure HoldsValue (s : State) (v : Nat) : Prop where
  dact : s.dact = true
  exact : v < 2 ^ 64 → s.derr = 0 ∧ s.dacc.toNat = v
  overflow : 2 ^ 64 ≤ v → s.derr = 5

/-- DBEGU opens a session at 0 (42_decode.md R142). -/
theorem HoldsCodec.dbegu (h : HoldsCodec s r A) :
    ∃ t, Answers .dbegu s t ∧ Accumulating t r A 0 :=
  ⟨_, .dbegu h.valid, h.congr rfl, rfl, rfl, rfl, rfl⟩

/-- What DCHAR reads of a digit in an unsigned session, and the sum it makes (42_decode.md R146). -/
theorem Accumulating.lookup {a d : Nat} {c : Byte} (h : Accumulating s r A a) (hd : lookupIn r A c = some d) :
    takesSign s.dsgn s.dfirst c = false ∧ s.rlutV.read c.toNat = some 1 ∧
    ∃ e : Byte, s.rlutD.read c.toNat = some e ∧ s.dacc.toNat * s.radix.toNat + e.toNat = a * r + d := by
  obtain ⟨hv, hdig, hnum⟩ := h.codec.rlut_of_lookup hd
  exact ⟨by simp [takesSign, h.dsgn], hv, _, hdig, by rw [h.dacc, h.codec.radix, hnum]⟩

/-- One digit whose sum fits (42_decode.md R146, R150). -/
theorem Accumulating.dchar {a d : Nat} {c : Byte} (h : Accumulating s r A a) (hd : lookupIn r A c = some d)
    (hfit : a * r + d < 2 ^ 64) : ∃ t, Answers (.dchar c) s t ∧ Accumulating t r A (a * r + d) := by
  obtain ⟨hsg, hv, e, hdig, hsum⟩ := h.lookup hd
  refine ⟨_, .dcharDigit h.dact h.derr hsg hv hdig (hsum ▸ hfit), h.codec.congr rfl, h.dact, h.dsgn, h.derr, ?_⟩
  simp only [respondOk_dacc]
  rw [hsum, BitVec.toNat_ofNat, Nat.mod_eq_of_lt hfit]

/-- One digit whose sum does not fit latches Overflow (42_decode.md R150). -/
theorem Accumulating.dchar_overflow {a d : Nat} {c : Byte} (h : Accumulating s r A a)
    (hd : lookupIn r A c = some d) (hover : 2 ^ 64 ≤ a * r + d) :
    ∃ t, Answers (.dchar c) s t ∧ t.dact = true ∧ t.derr = 5 := by
  obtain ⟨hsg, hv, e, hdig, hsum⟩ := h.lookup hd
  exact ⟨_, .dcharOverflow h.dact h.derr hsg hv hdig (hsum ▸ hover), h.dact, rfl⟩

/-- The characters of a session, digit by digit from the accumulator `a` on. -/
theorem Accumulating.run (str : List Byte) : ∀ {s : State} {a v : Nat}, Accumulating s r A a → a < 2 ^ 64 →
    valueFrom r (lookupIn r A) a str = some v →
      ∃ t, runInstrs (str.map .dchar) s = .next t ∧ HoldsValue t v := by
  induction str with
  | nil =>
    intro s a v h ha hval
    cases hval
    exact ⟨s, rfl, h.dact, fun _ => ⟨h.derr, h.dacc⟩, fun hge => absurd ha (Nat.not_lt.mpr hge)⟩
  | cons c w ih =>
    intro s a v h ha hval
    simp only [valueFrom] at hval
    split at hval
    · cases hval
    · rename_i d hd
      rw [List.map_cons]
      rcases Nat.lt_or_ge (a * r + d) (2 ^ 64) with hfit | hover
      · obtain ⟨u, hu, hacc⟩ := h.dchar hd hfit
        rw [runInstrs_cons hu]
        exact ih hacc hfit hval
      · obtain ⟨u, hu, hda, he⟩ := h.dchar_overflow hd hover
        have hne : u.derr ≠ 0 := by rw [he]; decide
        have hmin := h.codec.radixMin
        have hv := le_of_valueFrom (by omega) w hval
        rw [runInstrs_cons hu, runInstrs_dchar_latched w u hda hne]
        exact ⟨_, rfl, hda, fun hlt => absurd hlt (by omega), fun _ => he⟩

/-- Settles O52, by induction on the string, with the accumulator generalised (`Accumulating.run`). -/
theorem accumulatorHoldsTheExactValue : Obligations.AccumulatorHoldsTheExactValue := by
  intro str s r A a hA hval
  obtain ⟨u, hu, hacc⟩ := hA.dbegu
  obtain ⟨t, ht, hres⟩ := hacc.run str (by decide) hval
  exact ⟨t, (runInstrs_cons hu).trans ht, hres.dact, hres.exact, hres.overflow⟩

end Sys2Proof.Machine
end

section
/-! SUPPORT. The length functions (10_state.md R43). -/

namespace Sys2Proof.Machine

/-! ## The least number with a property -/

/-- What satisfies the property bounds the least that does. -/
theorem leastFrom_le {p : Nat → Bool} {m : Nat} (hm : p m = true) :
    ∀ fuel k, k ≤ m → leastFrom p fuel k ≤ m := by
  intro fuel
  induction fuel with
  | zero => intro k hk; exact hk
  | succ fuel ih =>
    intro k hk
    unfold leastFrom
    split
    · exact hk
    · rename_i hp
      have hne : k ≠ m := by rintro rfl; exact hp hm
      exact ih (k + 1) (by omega)

/-- The least number has the property when some number within the fuel has it. -/
theorem leastFrom_satisfies {p : Nat → Bool} {m : Nat} (hm : p m = true) :
    ∀ fuel k, k ≤ m → m ≤ k + fuel → p (leastFrom p fuel k) = true := by
  intro fuel
  induction fuel with
  | zero =>
    intro k hk hf
    obtain rfl : k = m := by omega
    exact hm
  | succ fuel ih =>
    intro k hk hf
    unfold leastFrom
    split
    · assumption
    · rename_i hp
      have hne : k ≠ m := by rintro rfl; exact hp hm
      exact ih (k + 1) (by omega) (by omega)

theorem le_leastFrom (p : Nat → Bool) : ∀ fuel k, k ≤ leastFrom p fuel k := by
  intro fuel
  induction fuel with
  | zero => intro k; exact le_refl k
  | succ fuel ih =>
    intro k
    unfold leastFrom
    split
    · exact le_refl k
    · exact (Nat.le_succ k).trans (ih (k + 1))

/-- `ndig` is the number of digits: the power it names is above the value (41_encode.md R126). -/
theorem lt_pow_ndig {v r : Nat} (hr : 2 ≤ r) (hv : v < 2 ^ 64) : v < r ^ ndig v r := by
  have h64 : decide (v < r ^ 64) = true := decide_eq_true (hv.trans_le (Nat.pow_le_pow_left hr 64))
  exact of_decide_eq_true (leastFrom_satisfies (p := fun k => decide (v < r ^ k)) h64 64 1 (by omega) (by omega))

/-- A power above the value bounds `ndig` (41_encode.md R126). -/
theorem ndig_le {v r k : Nat} (hk : 1 ≤ k) (h : v < r ^ k) : ndig v r ≤ k :=
  leastFrom_le (p := fun k => decide (v < r ^ k)) (decide_eq_true h) 64 1 hk

theorem one_le_ndig (v r : Nat) : 1 ≤ ndig v r := le_leastFrom _ 64 1

/-! ## The comparisons of the table -/

/-- The test of `maxlen3` is that of DU: `2^64 <= r^k` is `2^64 - 1 < r^k` (10_state.md R43). -/
theorem maxlen3_eq (r : Nat) : maxlen3 r = longestUnsigned r + 1 := by
  have hp : (fun k => decide (2 ^ 64 ≤ r ^ k)) = fun k => decide (2 ^ 64 - 1 < r ^ k) := by
    funext k
    exact decide_eq_decide.mpr (by omega)
  rw [maxlen3, hp]
  rfl

/-- The magnitude of a signed value has no more digits than the largest unsigned value. -/
theorem longestSigned_le {r : Nat} (hr : 2 ≤ r) : longestSigned r ≤ longestUnsigned r + 1 := by
  have hlt : 2 ^ 63 < r ^ ndig (2 ^ 64 - 1) r := lt_trans (by decide) (lt_pow_ndig hr (by decide))
  exact Nat.succ_le_succ (ndig_le (one_le_ndig _ r) hlt)

/-- `maxlen` is at least DU: with `K` the rounded logarithm, `r^(2K+1) > 2^128` gives `r^(K+1) > 2^64`. -/
theorem longestUnsigned_le_maxlen {r : Nat} (hr : 2 ≤ r) : longestUnsigned r ≤ maxlen r := by
  have h64 : decide (2 ^ 128 < r ^ (2 * 64 + 1)) = true :=
    decide_eq_true (lt_of_lt_of_le (by decide) (Nat.pow_le_pow_left hr (2 * 64 + 1)))
  obtain ⟨K, hK⟩ : ∃ K, K = leastFrom (fun k => decide (2 ^ 128 < r ^ (2 * k + 1))) 64 1 := ⟨_, rfl⟩
  have hpow : 2 ^ 128 < r ^ (2 * K + 1) := by
    rw [hK]
    exact of_decide_eq_true
      (leastFrom_satisfies (p := fun k => decide (2 ^ 128 < r ^ (2 * k + 1))) h64 64 1 (by omega) (by omega))
  have hsq : (2 ^ 64) ^ 2 < (r ^ (K + 1)) ^ 2 := by
    calc (2 ^ 64) ^ 2 = 2 ^ 128 := by decide
      _ < r ^ (2 * K + 1) := hpow
      _ ≤ r ^ ((K + 1) * 2) := Nat.pow_le_pow_right (by omega) (by omega)
      _ = (r ^ (K + 1)) ^ 2 := pow_mul r (K + 1) 2
  have hlt : 2 ^ 64 < r ^ (K + 1) := lt_of_pow_lt_pow_left₀ 2 (Nat.zero_le _) hsq
  rw [maxlen, ← hK]
  exact ndig_le (by omega) (lt_of_le_of_lt (by decide) hlt)

/-- Settles O59: the comparisons hold at every radix from 2 on; the two counts are read off the 255 radices. -/
theorem lengthBoundsCompareAsTabled : Obligations.LengthBoundsCompareAsTabled := by
  refine ⟨fun r hr _ => ⟨maxlen3_eq r, ?_, longestUnsigned_le_maxlen hr⟩, by decide +kernel, by decide +kernel⟩
  rw [maxlen3_eq]
  exact max_le (Nat.le_succ _) (longestSigned_le hr)

end Sys2Proof.Machine
end

section
/-! SUPPORT. The two channels of the interface (20_memory.md R60, R61, R67): what a command puts on the response
channel, and that no command reads the command channel. -/

namespace Sys2Proof.Machine

variable {i : Instr} {s t : State}

/-! ## One response for each command -/

/-- A command that completes appends one response and leaves the host's other actions (20_memory.md R61). -/
theorem Answers.responds (h : Answers i s t) : t.cmdIn = s.cmdIn ∧ ∃ r, t.rspOut = s.rspOut ++ [r] := by
  cases h with
  | preset hp =>
    rw [(hp.loaded s).rest]
    exact ⟨rfl, _, rfl⟩
  | encu _ hu =>
    rw [emitDigits_frame hu]
    exact ⟨rfl, _, rfl⟩
  | encs _ hu =>
    rw [emitSigned_frame hu]
    exact ⟨rfl, _, rfl⟩
  | dend =>
    obtain ⟨st, d, he, -, -⟩ := sessionResult_eq { s with dact := false }
    rw [he]
    exact ⟨rfl, _, rfl⟩
  | _ => exact ⟨rfl, _, rfl⟩

/-- Settles O28: `Answers.responds`, for every answer of `exec`. -/
theorem everyCommandProducesOneResponse : Obligations.EveryCommandProducesOneResponse :=
  fun _ _ _ h => (answers_of_exec h).responds

/-! ## A step takes one word -/

/-- A step on a command word is the command's own rule, from the state with the word taken (20_memory.md R60). -/
theorem step_command {w : CmdWord} {rest : List HostAction} (hc : s.cmdIn = .command w :: rest)
    (hw : decode w = .ok i) : step s = exec i { s with cmdIn := rest } := by
  simp only [step, fetch, hc, runWord, hw]

/-- A table word that the decoder reads as a command is that command's word (log 7). -/
theorem decode_wordOfNat {nbits w : Nat} (h : decodeTableWord nbits w = some i) :
    decode (wordOfNat nbits w) = .ok i := by
  unfold decodeTableWord at h
  split at h
  · rename_i j hj
    cases h
    exact hj
  · cases h

/-- Settles O4: both clauses are `step_command`; a presented word is the host's next action (log 1). -/
theorem stepRunsTheDecodedCommand : Obligations.StepRunsTheDecodedCommand :=
  ⟨fun _ _ _ _ hc hw => step_command hc hw, fun _ _ _ h => step_command rfl (decode_wordOfNat h)⟩

/-! ## No command reads the command channel -/

/-- The state with the actions `acts` on the command channel. -/
def State.withActions (s : State) (acts : List HostAction) : State := { s with cmdIn := acts }

@[simp] theorem withActions_radix (s : State) (acts : List HostAction) : (s.withActions acts).radix = s.radix := rfl
@[simp] theorem withActions_alpha (s : State) (acts : List HostAction) : (s.withActions acts).alpha = s.alpha := rfl
@[simp] theorem withActions_rlutV (s : State) (acts : List HostAction) : (s.withActions acts).rlutV = s.rlutV := rfl
@[simp] theorem withActions_rlutD (s : State) (acts : List HostAction) : (s.withActions acts).rlutD = s.rlutD := rfl
@[simp] theorem withActions_obuf (s : State) (acts : List HostAction) : (s.withActions acts).obuf = s.obuf := rfl
@[simp] theorem withActions_opos (s : State) (acts : List HostAction) : (s.withActions acts).opos = s.opos := rfl

/-- Change the next state of an outcome; a fault and a refusal stay as they are. -/
def mapNext (f : State → State) : Host.Outcome State Fault Refusal → Host.Outcome State Fault Refusal
  | .next s => .next (f s)
  | .fault r => .fault r
  | .refused r => .refused r

theorem outcomeOf_map (f : State → State) (r : Except Fault State) :
    outcomeOf (r.map f) = mapNext f (outcomeOf r) := by
  cases r <;> rfl

variable (acts : List HostAction)

/-! The shared operations, each with other actions on the channel: the same answer, with those actions on it. -/

theorem setDigits_withActions (cs : List Byte) : ∀ (i : Nat) (s : State),
    setDigits cs i (s.withActions acts) = (setDigits cs i s).withActions acts := by
  induction cs with
  | nil => intro i s; rfl
  | cons c cs ih => intro i s; exact ih (i + 1) (setDigit c i s)

theorem loadPreset_withActions (ref : List Byte) (n : Nat) (s : State) :
    loadPreset ref n (clearCodec (s.withActions acts)) = (loadPreset ref n (clearCodec s)).withActions acts := by
  have h := setDigits_withActions acts (ref.take n) 0 (clearCodec s)
  exact congrArg (fun u : State => { u with radix := BitVec.ofNat 9 n, valid := true }) h

theorem presetOrRaise_withActions (ref : List Byte) (n : Value) (s : State) :
    presetOrRaise ref n (s.withActions acts) = (presetOrRaise ref n s).withActions acts := by
  unfold presetOrRaise
  split
  · rfl
  · rw [loadPreset_withActions]
    rfl

theorem pushChar_withActions (c : Byte) (s : State) :
    pushChar c (s.withActions acts) = (pushChar c s).map (·.withActions acts) := by
  unfold pushChar
  rw [apply_ite (Except.map _)]
  refine if_congr Iff.rfl ?_ rfl
  simp only [withActions_rlutV]
  cases readEntry .rlutV Config.tableDepth s.rlutV c.toNat with
  | error f => rfl
  | ok v =>
    dsimp only
    rw [apply_ite (Except.map _)]
    rfl

theorem pushOut_withActions (c : Byte) (s : State) :
    pushOut c (s.withActions acts) = (pushOut c s).map (·.withActions acts) := by
  unfold pushOut
  rw [apply_ite (Except.map _)]
  rfl

theorem emitLoop_withActions : ∀ (fuel en : Nat) (s : State),
    emitLoop fuel en (s.withActions acts) = (emitLoop fuel en s).map (·.withActions acts) := by
  intro fuel
  induction fuel with
  | zero => intro en s; rfl
  | succ fuel ih =>
    intro en s
    simp only [emitLoop, pushOut_withActions, withActions_alpha, withActions_radix]
    cases readEntry .alpha Config.tableDepth s.alpha (en % s.radix.toNat) with
    | error f => rfl
    | ok c =>
      dsimp only
      cases pushOut c s with
      | error f => rfl
      | ok u =>
        dsimp only
        rw [apply_ite (Except.map _), ← ih]
        rfl

theorem emitDigits_withActions (v : Value) (s : State) :
    emitDigits v (s.withActions acts) = (emitDigits v s).map (·.withActions acts) := by
  unfold emitDigits
  rw [apply_ite (Except.map _), ← emitLoop_withActions]
  rfl

theorem emitSigned_withActions (n : Value) (s : State) :
    emitSigned n (s.withActions acts) = (emitSigned n s).map (·.withActions acts) := by
  simp only [emitSigned, emitDigits_withActions]
  cases emitDigits (magnitude n) s with
  | error f => rfl
  | ok u =>
    dsimp only
    rw [apply_ite (Except.map _), ← pushOut_withActions]
    rfl

theorem popOut_withActions (s : State) :
    popOut (s.withActions acts) = (popOut s).map (·.withActions acts) := by
  simp only [popOut, withActions_obuf, withActions_opos]
  cases readEntry .obuf Config.outDepth s.obuf s.opos.toNat with
  | error f => rfl
  | ok c => rfl

theorem accumulate_withActions (d : Byte) (s : State) :
    accumulate d (s.withActions acts) = (accumulate d s).withActions acts := by
  unfold accumulate
  rw [apply_ite (State.withActions · acts)]
  rfl

theorem takeDigit_withActions (c : Byte) (s : State) :
    takeDigit c (s.withActions acts) = (takeDigit c s).map (·.withActions acts) := by
  simp only [takeDigit, accumulate_withActions, withActions_rlutV, withActions_rlutD]
  cases readEntry .rlutV Config.tableDepth s.rlutV c.toNat with
  | error f => rfl
  | ok v =>
    dsimp only
    rw [apply_ite (Except.map _)]
    cases readEntry .rlutD Config.tableDepth s.rlutD c.toNat with
    | error f => rfl
    | ok d => rfl

theorem sessionResult_withActions (s : State) :
    sessionResult (s.withActions acts) = (sessionResult s).withActions acts := by
  simp only [sessionResult, apply_ite (State.withActions · acts)]
  rfl

/-- Most commands run where one register allows it and answer an error elsewhere. -/
theorem ite_next_withActions {b : Bool} {o o' : Host.Outcome State Fault Refusal} {u u' : State}
    (ho : o' = mapNext (·.withActions acts) o) (hu : u' = u.withActions acts) :
    (if b then o' else .next u') = mapNext (·.withActions acts) (if b then o else .next u) := by
  subst ho hu
  rw [apply_ite (mapNext _)]
  rfl

/-- What follows a computation, its count or its response, does not read the channel either. -/
theorem outcomeOf_map_withActions {g : State → State} (r : Except Fault State)
    (hg : ∀ u : State, g (u.withActions acts) = (g u).withActions acts) :
    outcomeOf ((r.map (·.withActions acts)).map g) = mapNext (·.withActions acts) (outcomeOf (r.map g)) := by
  cases r with
  | error f => rfl
  | ok u => exact congrArg Host.Outcome.next (hg u)

/-- No command reads the command channel: with other actions on it the command does the same, and leaves them there
(20_memory.md R60). -/
theorem exec_withActions (i : Instr) (s : State) :
    exec i (s.withActions acts) = mapNext (·.withActions acts) (exec i s) := by
  cases i with
  | abegin => rfl
  | apush c =>
    refine ite_next_withActions acts ?_ rfl
    rw [pushChar_withActions]
    exact outcomeOf_map_withActions acts _ fun _ => rfl
  | acommit =>
    refine ite_next_withActions acts ?_ rfl
    simp only [apply_ite (mapNext (·.withActions acts))]
    rfl
  | ldlower n => exact congrArg _ (presetOrRaise_withActions acts lowerRef n s)
  | ldupper n => exact congrArg _ (presetOrRaise_withActions acts upperRef n s)
  | ldb64 => exact congrArg (fun u => Host.Outcome.next (respondOk 0 u)) (loadPreset_withActions acts b64Ref 64 s)
  | base => exact ite_next_withActions acts rfl rfl
  | encu n =>
    refine ite_next_withActions acts ?_ rfl
    rw [emitDigits_withActions]
    exact outcomeOf_map_withActions acts _ fun _ => rfl
  | encs n =>
    refine ite_next_withActions acts ?_ rfl
    rw [emitSigned_withActions]
    exact outcomeOf_map_withActions acts _ fun _ => rfl
  | opop =>
    simp only [exec, execOpop, withActions_opos, popOut_withActions, outcomeOf_map, apply_ite (mapNext _)]
    rfl
  | dbegu => exact ite_next_withActions acts rfl rfl
  | dbegs => exact ite_next_withActions acts rfl rfl
  | dchar c =>
    refine ite_next_withActions acts ?_ rfl
    have h := takeDigit_withActions acts c { s with dfirst := false, dany := true }
    simp only [apply_ite (mapNext (·.withActions acts)), ← outcomeOf_map, ← h]
    rfl
  | dend => exact ite_next_withActions acts (congrArg _ (sessionResult_withActions acts { s with dact := false })) rfl

/-! ## A run is the left fold of its commands -/

theorem decodeZ_encode (h : i.operand = 0) : decodeZ (encode i) i = .ok i := by
  rw [decodeZ, valueField_encode, if_pos h]

theorem decodeC_encode {c : Byte} {f : Byte → Instr} (h : (f c).operand = c.setWidth 64) :
    decodeC (encode (f c)) f = .ok (f c) := by
  rw [decodeC, charZeroField_encode, charField_encode, h, extractLsb'_setWidth_char, if_pos rfl,
    extractLsb'_zero_setWidth_char]

theorem decodeV_encode {n : Value} {f : Value → Instr} (h : (f n).operand = n) :
    decodeV (encode (f n)) f = .ok (f n) := by
  rw [decodeV, valueField_encode, h]

/-- The decoder reads a command's own word as that command (30_encoding.md R76). -/
theorem decode_encode (i : Instr) : decode (encode i) = .ok i := by
  unfold decode
  rw [opField_encode]
  cases i with
  | abegin | acommit | ldb64 | base | opop | dbegu | dbegs | dend =>
    simp only [Instr.opcode, BitVec.reduceEq, reduceIte]
    exact decodeZ_encode rfl
  | apush c | dchar c =>
    simp only [Instr.opcode, BitVec.reduceEq, reduceIte]
    exact decodeC_encode rfl
  | ldlower n | ldupper n | encu n | encs n =>
    simp only [Instr.opcode, BitVec.reduceEq, reduceIte]
    exact decodeV_encode rfl

/-- A step on a command's own word is the command, whatever else is on the channel. -/
theorem step_encode (i : Instr) (rest : List HostAction) (s : State) :
    step (s.withActions (.command (encode i) :: rest)) = mapNext (·.withActions rest) (exec i s) := by
  rw [← exec_withActions]
  exact step_command rfl (decode_encode i)

theorem run_of_step_next {M : Host.Core} {k : Nat} {a b : M.State} (h : M.step a = .next b) :
    M.run (k + 1) a = M.run k b := by
  rw [Host.Core.run, h]

theorem run_of_step_fault {M : Host.Core} {k : Nat} {a : M.State} {f : M.Fault} (h : M.step a = .fault f) :
    M.run (k + 1) a = .fault f := by
  rw [Host.Core.run, h]

theorem run_of_step_refused {M : Host.Core} {k : Nat} {a : M.State} {r : M.Refusal} (h : M.step a = .refused r) :
    M.run (k + 1) a = .refused r := by
  rw [Host.Core.run, h]

/-- Settles O6, by induction on the list: a step runs the first command (`step_encode`), and the state it leaves has
an empty channel again (`Answers.responds`). A fault or a refusal stops both alike. -/
theorem runIsTheLeftFoldOfTheCommands : Obligations.RunIsTheLeftFoldOfTheCommands := by
  intro is
  induction is with
  | nil =>
    intro s hs
    exact congrArg Host.Outcome.next (congrArg s.withActions hs.symm)
  | cons i is ih =>
    intro s hs
    have hstep := step_encode i (is.map fun j => .command (encode j)) s
    rw [runInstrs]
    cases he : exec i s with
    | next t =>
      rw [he] at hstep
      exact Eq.trans (run_of_step_next (M := core) hstep) (ih t ((answers_of_exec he).responds.1.trans hs))
    | fault f =>
      rw [he] at hstep
      exact run_of_step_fault (M := core) hstep
    | refused r =>
      rw [he] at hstep
      exact run_of_step_refused (M := core) hstep

end Sys2Proof.Machine
end

section
/-! SUPPORT. The entries of the memories a command can store to (20_memory.md R51, R57). -/

namespace Sys2Proof.Machine

variable {i : Instr} {s t u : State} {ref : List Byte} {char : Nat → Byte} {n : Nat}

/-! ## The builder -/

/-- APUSH stores to no entry but ALPHA[ACNT] and RLUT[c], and to no register of the codec (40_alphabet.md R104). -/
theorem Answers.apush_frame {c : Byte} (h : Answers (.apush c) s t) :
    t.valid = s.valid ∧ t.radix = s.radix ∧ t.build = s.build ∧
    (∀ a, a ≠ s.acnt.toNat → t.alpha.read a = s.alpha.read a) ∧
    (∀ b, b ≠ c.toNat → t.rlutV.read b = s.rlutV.read b) ∧
    (∀ b, b ≠ c.toNat → t.rlutD.read b = s.rlutD.read b) := by
  cases h with
  | apushNew =>
    exact ⟨rfl, rfl, rfl, fun _ ha => Memory.read_write_other _ _ ha, fun _ hb => Memory.read_write_other _ _ hb,
      fun _ hb => Memory.read_write_other _ _ hb⟩
  | apushNoBuild | apushRepeat | apushBeyond =>
    exact ⟨rfl, rfl, rfl, fun _ _ => rfl, fun _ _ => rfl, fun _ _ => rfl⟩
  | preset hp => cases hp

/-- ACOMMIT leaves the count, the duplicate flag and the tables (40_alphabet.md R106). -/
theorem Answers.acommit_frame (h : Answers .acommit s t) :
    t.acnt = s.acnt ∧ t.adup = s.adup ∧ t.alpha = s.alpha ∧ t.rlutV = s.rlutV ∧ t.rlutD = s.rlutD := by
  cases h with
  | acommitNoBuild | acommitSize | acommitRepeat | acommitOk => exact ⟨rfl, rfl, rfl, rfl, rfl⟩
  | preset hp => cases hp

/-- Settles O35: the frames of the two commands of the builder. -/
theorem apushAndAcommitFrame : Obligations.ApushAndAcommitFrame := by
  refine ⟨fun c s t h => (answers_of_exec h).apush_frame, fun s t h => ?_⟩
  obtain ⟨hn, hd, ha, hv, hrd⟩ := (answers_of_exec h).acommit_frame
  exact ⟨hn, hd, fun a => by rw [ha], fun b => by rw [hv], fun b => by rw [hrd]⟩

/-! ## The preset loads -/

/-- The loop of `load_preset` stores to the digits of its own characters only (40_alphabet.md R108). -/
theorem setDigits_rlutD_other {b : Nat} (cs : List Byte) : ∀ (i : Nat) (s : State), (∀ c ∈ cs, b ≠ c.toNat) →
    (setDigits cs i s).rlutD.read b = s.rlutD.read b := by
  induction cs with
  | nil => intro i s _; rfl
  | cons c cs ih =>
    intro i s hb
    obtain ⟨hc, hcs⟩ := List.forall_mem_cons.mp hb
    exact (ih (i + 1) (setDigit c i s) hcs).trans (Memory.read_write_other _ _ hc)

/-- The characters a preset load takes from its reference are those of its formula (10_state.md R37). -/
theorem IsPreset.exists_char_of_mem_take (hp : IsPreset i ref char n) {c : Byte} (hc : c ∈ ref.take n) :
    ∃ j, j < n ∧ c = char j := by
  obtain ⟨-, -, -, -, hch⟩ := hp.spec
  obtain ⟨j, hj, rfl⟩ := List.mem_take_iff_getElem.mp hc
  exact ⟨j, by omega, hch j (by omega)⟩

/-- A preset load of `n` characters stores to ALPHA[0..n-1] and to the digits of those characters only. -/
theorem IsPreset.storeFrame (hp : IsPreset i ref char n) (h : exec i s = .next t) :
    (∀ a, n ≤ a → t.alpha.read a = s.alpha.read a) ∧
    (∀ b, (∀ j, j < n → b ≠ (char j).toNat) → t.rlutD.read b = s.rlutD.read b) := by
  obtain rfl := (answers_of_exec h).unique (.preset hp)
  refine ⟨(hp.loaded s).alphaOld, fun b hb => setDigits_rlutD_other (ref.take n) 0 (clearCodec s) fun c hc => ?_⟩
  obtain ⟨j, hj, rfl⟩ := hp.exists_char_of_mem_take hc
  exact hb j hj

/-- The operand a preset load accepts (40_alphabet.md R110). -/
theorem presetLegal_iff (v : Value) : presetIllegal v = false ↔ 2 ≤ v.toNat ∧ v.toNat ≤ 36 := by
  rw [← Bool.not_eq_true, presetIllegal_iff]
  omega

/-- Settles O36: what only clears the codec stores to neither memory; the others are `IsPreset.storeFrame`. -/
theorem clearAndPresetLoadFrame : Obligations.ClearAndPresetLoadFrame := by
  refine ⟨fun s t h => ?_, fun n s t h hn => ?_, fun n s t h hn => ?_, fun n s t h hn => ?_, fun s t h => ?_⟩
  · obtain rfl := (answers_of_exec h).unique .abegin
    exact ⟨fun _ => rfl, fun _ => rfl⟩
  · have hn := (presetIllegal_iff n).mp hn
    obtain h | h := h
    · obtain rfl := (answers_of_exec h).unique (.ldlowerIllegal hn)
      exact ⟨fun _ => rfl, fun _ => rfl⟩
    · obtain rfl := (answers_of_exec h).unique (.ldupperIllegal hn)
      exact ⟨fun _ => rfl, fun _ => rfl⟩
  · obtain ⟨hmin, hmax⟩ := (presetLegal_iff n).mp hn
    exact (IsPreset.lower hmin hmax).storeFrame h
  · obtain ⟨hmin, hmax⟩ := (presetLegal_iff n).mp hn
    exact (IsPreset.upper hmin hmax).storeFrame h
  · exact IsPreset.b64.storeFrame h

/-! ## The encoder -/

/-- `emit_digits` answers only where its precondition holds (41_encode.md R120). -/
theorem radix_of_emitDigits {v : Value} (h : emitDigits v s = .ok u) :
    2 ≤ s.radix.toNat ∧ s.radix.toNat ≤ 256 := by
  unfold emitDigits at h
  split at h
  · assumption
  · cases h

theorem radix_of_emitSigned {v : Value} (h : emitSigned v s = .ok u) :
    2 ≤ s.radix.toNat ∧ s.radix.toNat ≤ 256 := by
  unfold emitSigned at h
  split at h
  · cases h
  · rename_i s' hs'
    exact radix_of_emitDigits hs'

/-- ENCU with a codec, when it completes, has stored `enc_u(n)` (41_encode.md R122, R130). -/
theorem Answers.encu_stored {v : Value} {A : Nat → Byte} (h : Answers (.encu v) s t) (hv : s.valid = true)
    (hA : ∀ j, j < s.radix.toNat → s.alpha.read j = some (A j)) : OutputStored (encU s.radix.toNat A v) s t := by
  cases h with
  | encuNoCodec hv' => rw [hv] at hv'; cases hv'
  | encu _ hu =>
    obtain ⟨hmin, hmax⟩ := radix_of_emitDigits hu
    obtain ⟨u', hu', hem⟩ := emitDigits_spec A v s hmin hmax hA
    cases hu.symm.trans hu'
    exact hem.outputStored
  | preset hp => cases hp

/-- ENCS with a codec, when it completes, has stored `enc_s(n)` (41_encode.md R124, R130). -/
theorem Answers.encs_stored {v : Value} {A : Nat → Byte} (h : Answers (.encs v) s t) (hv : s.valid = true)
    (hA : ∀ j, j < s.radix.toNat → s.alpha.read j = some (A j)) : OutputStored (encS s.radix.toNat A v) s t := by
  cases h with
  | encsNoCodec hv' => rw [hv] at hv'; cases hv'
  | encs _ hu =>
    obtain ⟨hmin, hmax⟩ := radix_of_emitSigned hu
    obtain ⟨u', hu', hem⟩ := emitSigned_spec A v s hmin hmax hA
    cases hu.symm.trans hu'
    exact hem.outputStored
  | preset hp => cases hp

/-- OPOP moves OPOS only (41_encode.md R128). -/
theorem Answers.opop_obuf (h : Answers .opop s t) : t.obuf = s.obuf := by
  cases h with
  | opopEmpty | opop => rfl
  | preset hp => cases hp

/-- Settles O37: `OutputStored` names the entries stored to; OPOP, and an encode turned away, leave OBUF. -/
theorem encodeStoresOnlyItsString : Obligations.EncodeStoresOnlyItsString := by
  refine ⟨fun n s t A hv _ hA h => ((answers_of_exec h).encu_stored hv hA).others,
    fun n s t A hv _ hA h => ((answers_of_exec h).encs_stored hv hA).others, fun i s t hi h a => ?_⟩
  obtain rfl | ⟨hv, ⟨n, rfl⟩ | ⟨n, rfl⟩⟩ := hi
  · rw [(answers_of_exec h).opop_obuf]
  · obtain rfl := (answers_of_exec h).unique (.encuNoCodec hv)
    rfl
  · obtain rfl := (answers_of_exec h).unique (.encsNoCodec hv)
    rfl

end Sys2Proof.Machine
end

section
/-! SUPPORT. The decoder and the encoder (30_encoding.md R70 to R78): which words decode, that a word that decodes is
the encoding of its command, and the rows of the opcode map as those of the commands. -/

namespace Sys2Proof

variable {i j : Instr} {w : CmdWord}

/-! ## Masked words -/

/-- Two concatenations are equal exactly when their parts are. -/
theorem append_eq_append_iff {a b : Nat} {x x' : BitVec a} {y y' : BitVec b} :
    x ++ y = x' ++ y' ↔ x = x' ∧ y = y' := by
  constructor
  · intro h
    obtain rfl : x = x' := by simpa only [extract_upper] using congrArg (·.extractLsb' b a) h
    exact ⟨rfl, (BitVec.append_right_inj x).mp h⟩
  · rintro ⟨rfl, rfl⟩
    rfl

/-- A mask over two fields is a mask over each of them. -/
theorem and_append_eq_append_iff {a b : Nat} (w : BitVec (a + b)) (m p : BitVec a) (n q : BitVec b) :
    w &&& (m ++ n) = p ++ q ↔ w.extractLsb' b a &&& m = p ∧ w.extractLsb' 0 b &&& n = q := by
  conv_lhs => rw [append_extract w, BitVec.and_append]
  exact append_eq_append_iff

/-- `cmd[63:8]` and `cmd[7:0]` are fields of `cmd[63:0]` (30_encoding.md R72, R73). -/
theorem charFields_eq (w : CmdWord) :
    charZeroField w = (valueField w).extractLsb' 8 56 ∧ charField w = (valueField w).extractLsb' 0 8 := by
  have hfield {k n : Nat} (h : k + n ≤ 64) : w.extractLsb' k n = (valueField w).extractLsb' k n := by
    conv_lhs => rw [word_eq_append w]
    exact extract_lower _ _ h
  exact ⟨hfield (by decide), hfield (by decide)⟩

/-- A value without bits above its character is that character (30_encoding.md R72). -/
theorem setWidth_char_of_zero {x : Value} (h : x.extractLsb' 8 56 = 0) : (x.extractLsb' 0 8).setWidth 64 = x := by
  conv_rhs => rw [append_extract (a := 56) (b := 8) x, h]
  exact BitVec.setWidth_eq_append (by decide)

/-! ## The formats -/

/-- The format of a command (30_encoding.md R76). -/
def Instr.format : Instr → Format
  | .abegin | .acommit | .ldb64 | .base | .opop | .dbegu | .dbegs | .dend => .z
  | .apush _ | .dchar _ => .c
  | .ldlower _ | .ldupper _ | .encu _ | .encs _ => .v

/-- The must-be-zero bits of the operand field (30_encoding.md R71, R72, R73). -/
def Format.zeroMask : Format → Value
  | .z => BitVec.allOnes 64
  | .c => BitVec.allOnes 56 ++ 0#8
  | .v => 0

theorem and_zeroMask_z (x : Value) : x &&& Format.z.zeroMask = 0#64 ↔ x = 0#64 := by
  rw [Format.zeroMask, BitVec.and_allOnes]

theorem and_zeroMask_c (x : Value) : x &&& Format.c.zeroMask = 0#64 ↔ x.extractLsb' 8 56 = 0#56 := by
  have h := and_append_eq_append_iff (a := 56) (b := 8) x (BitVec.allOnes 56) 0#56 0#8 0#8
  rw [BitVec.and_allOnes, and_iff_left BitVec.and_zero] at h
  exact h

theorem and_zeroMask_v (x : Value) : x &&& Format.v.zeroMask = 0 := BitVec.and_zero

/-- The must-be-zero bits of a command's operand are 0. -/
theorem operand_and_zeroMask (i : Instr) : i.operand &&& i.format.zeroMask = 0 := by
  cases i with
  | abegin | acommit | ldb64 | base | opop | dbegu | dbegs | dend => exact BitVec.zero_and
  | apush c | dchar c => exact (and_zeroMask_c _).mpr (extractLsb'_setWidth_char c)
  | ldlower n | ldupper n | encu n | encs n => exact and_zeroMask_v n

theorem formatOfOpcode_opcode (i : Instr) : formatOfOpcode i.opcode = some i.format := by
  cases i <;> rfl

theorem format_eq_of_opcode_eq (h : i.opcode = j.opcode) : i.format = j.format := by
  have hf := congrArg formatOfOpcode h
  rw [formatOfOpcode_opcode, formatOfOpcode_opcode] at hf
  exact Option.some.inj hf

/-- One command of each row of the opcode map (30_encoding.md R76). -/
def rowCommands : List Instr :=
  [.abegin, .apush 0, .acommit, .ldlower 0, .ldupper 0, .ldb64, .base, .encu 0, .encs 0, .opop, .dbegu, .dbegs,
    .dchar 0, .dend]

theorem formatOfOpcode_eq_none_iff (op : BitVec 8) :
    formatOfOpcode op = none ↔ op ∉ rowCommands.map Instr.opcode := by
  constructor
  · intro h hmem
    obtain ⟨i, -, rfl⟩ := List.mem_map.mp hmem
    rw [formatOfOpcode_opcode] at h
    cases h
  · intro h
    simp only [rowCommands, Instr.opcode, List.map, List.mem_cons, List.not_mem_nil, or_false, not_or] at h
    simp [formatOfOpcode, h]

theorem formatOfOpcode_eq_z_iff (op : BitVec 8) : formatOfOpcode op = some .z ↔
    op ∈ [0x10#8, 0x12#8, 0x15#8, 0x16#8, 0x22#8, 0x30#8, 0x31#8, 0x33#8] := by
  unfold formatOfOpcode
  split_ifs <;> simp_all

theorem formatOfOpcode_eq_c_iff (op : BitVec 8) : formatOfOpcode op = some .c ↔ op ∈ [0x11#8, 0x32#8] := by
  constructor
  · unfold formatOfOpcode
    split_ifs <;> simp_all
  · intro h
    simp only [List.mem_cons, List.not_mem_nil, or_false] at h
    obtain rfl | rfl := h <;> rfl

/-- An opcode of some format is the opcode of some command. -/
theorem exists_opcode_of_format {op : BitVec 8} (h : formatOfOpcode op ≠ none) : ∃ i : Instr, i.opcode = op := by
  rw [Ne, formatOfOpcode_eq_none_iff, not_not] at h
  obtain ⟨i, -, hi⟩ := List.mem_map.mp h
  exact ⟨i, hi⟩

/-- The opcodes that no command has, as the ranges of 30_encoding.md R78 leave them. -/
theorem formatOfOpcode_eq_none_iff_range (op : BitVec 8) : formatOfOpcode op = none ↔
    ¬((0x10 ≤ op.toNat ∧ op.toNat ≤ 0x16) ∨ (0x20 ≤ op.toNat ∧ op.toNat ≤ 0x22) ∨
      (0x30 ≤ op.toNat ∧ op.toNat ≤ 0x33)) := by
  rw [formatOfOpcode_eq_none_iff]
  simp only [rowCommands, Instr.opcode, List.map, List.mem_cons, List.not_mem_nil, or_false, BitVec.toNat_eq,
    BitVec.toNat_ofNat, Nat.reducePow, Nat.reduceMod]
  omega

/-! ## The decoder -/

/-- The command `i` with the operand field `x` (30_encoding.md R71, R72, R73). -/
def Instr.withOperand (x : Value) : Instr → Instr
  | .apush _ => .apush (x.extractLsb' 0 8)
  | .ldlower _ => .ldlower x
  | .ldupper _ => .ldupper x
  | .encu _ => .encu x
  | .encs _ => .encs x
  | .dchar _ => .dchar (x.extractLsb' 0 8)
  | i => i

theorem opcode_withOperand (x : Value) (i : Instr) : (i.withOperand x).opcode = i.opcode := by
  cases i <;> rfl

theorem operand_withOperand {x : Value} (h : x &&& i.format.zeroMask = 0) : (i.withOperand x).operand = x := by
  cases i with
  | abegin | acommit | ldb64 | base | opop | dbegu | dbegs | dend => exact ((and_zeroMask_z x).mp h).symm
  | apush c | dchar c => exact setWidth_char_of_zero ((and_zeroMask_c x).mp h)
  | ldlower n | ldupper n | encu n | encs n => rfl

/-- A word with the opcode of a command and its must-be-zero bits 0 decodes to that command, with the word's operand
(30_encoding.md R76). -/
theorem decode_of_zeroBits (hop : opField w = i.opcode) (hz : valueField w &&& i.format.zeroMask = 0) :
    decode w = .ok (i.withOperand (valueField w)) := by
  cases i with
  | abegin | acommit | ldb64 | base | opop | dbegu | dbegs | dend =>
    simp only [decode, hop, Instr.opcode, BitVec.reduceEq, reduceIte]
    exact if_pos ((and_zeroMask_z _).mp hz)
  | apush c | dchar c =>
    simp only [decode, hop, Instr.opcode, BitVec.reduceEq, reduceIte]
    rw [decodeC, (charFields_eq w).1, (charFields_eq w).2]
    exact if_pos ((and_zeroMask_c _).mp hz)
  | ldlower n | ldupper n | encu n | encs n =>
    simp only [decode, hop, Instr.opcode, BitVec.reduceEq, reduceIte]
    rfl

/-- A word with the opcode of a command and some must-be-zero bit 1 is illegal (30_encoding.md R78). -/
theorem decode_of_not_zeroBits (hop : opField w = i.opcode) (hz : valueField w &&& i.format.zeroMask ≠ 0) :
    ∃ e, decode w = .error e := by
  cases i with
  | abegin | acommit | ldb64 | base | opop | dbegu | dbegs | dend =>
    simp only [decode, hop, Instr.opcode, BitVec.reduceEq, reduceIte]
    exact ⟨_, if_neg (mt (and_zeroMask_z _).mpr hz)⟩
  | apush c | dchar c =>
    simp only [decode, hop, Instr.opcode, BitVec.reduceEq, reduceIte]
    rw [decodeC, (charFields_eq w).1]
    exact ⟨_, if_neg (mt (and_zeroMask_c _).mpr hz)⟩
  | ldlower n | ldupper n | encu n | encs n => exact absurd (and_zeroMask_v _) hz

/-- A word whose opcode no command has is illegal (30_encoding.md R78). -/
theorem decode_of_unassigned (h : formatOfOpcode (opField w) = none) :
    decode w = .error (.unassignedOpcode (opField w)) := by
  rw [formatOfOpcode_eq_none_iff] at h
  simp only [rowCommands, Instr.opcode, List.map, List.mem_cons, List.not_mem_nil, or_false, not_or] at h
  simp only [decode, h, if_false]

/-- A word decodes to `i` exactly when it is the word of `i`. -/
theorem decode_eq_ok_iff : decode w = .ok i ↔ encode i = w := by
  constructor
  · intro h
    cases hf : formatOfOpcode (opField w) with
    | none => rw [decode_of_unassigned hf] at h; cases h
    | some f =>
      obtain ⟨j, hop⟩ := exists_opcode_of_format (ne_of_eq_of_ne hf (Option.some_ne_none f))
      by_cases hz : valueField w &&& j.format.zeroMask = 0
      · rw [decode_of_zeroBits hop.symm hz] at h
        cases h
        rw [encode, opcode_withOperand, operand_withOperand hz, hop]
        exact (word_eq_append w).symm
      · obtain ⟨e, he⟩ := decode_of_not_zeroBits hop.symm hz
        rw [he] at h
        cases h
  · rintro rfl
    exact Machine.decode_encode i

/-- The words of the commands with one opcode are the words with that opcode whose must-be-zero bits are 0. -/
theorem exists_decode_opcode_iff (i : Instr) (w : CmdWord) :
    (∃ j, decode w = .ok j ∧ j.opcode = i.opcode) ↔
      opField w = i.opcode ∧ valueField w &&& i.format.zeroMask = 0 := by
  constructor
  · rintro ⟨j, hj, hop⟩
    obtain rfl := decode_eq_ok_iff.mp hj
    rw [opField_encode, valueField_encode, ← format_eq_of_opcode_eq hop]
    exact ⟨hop, operand_and_zeroMask j⟩
  · rintro ⟨hop, hz⟩
    exact ⟨_, decode_of_zeroBits hop hz, opcode_withOperand _ i⟩

/-- The legal words: the opcode has a format and the format's must-be-zero bits are 0 (30_encoding.md R78). -/
theorem exists_decode_iff (w : CmdWord) : (∃ i, decode w = .ok i) ↔
    ∃ f, formatOfOpcode (opField w) = some f ∧ valueField w &&& f.zeroMask = 0 := by
  constructor
  · rintro ⟨i, hi⟩
    obtain ⟨hop, hz⟩ := (exists_decode_opcode_iff i w).mp ⟨i, hi, rfl⟩
    exact ⟨i.format, hop ▸ formatOfOpcode_opcode i, hz⟩
  · rintro ⟨f, hf, hz⟩
    obtain ⟨i, hop⟩ := exists_opcode_of_format (ne_of_eq_of_ne hf (Option.some_ne_none f))
    obtain rfl : i.format = f := Option.some.inj ((formatOfOpcode_opcode i).symm.trans (hop ▸ hf))
    exact ⟨_, decode_of_zeroBits hop.symm hz⟩

theorem exists_error_iff (w : CmdWord) : (∃ e, decode w = .error e) ↔ ¬ ∃ i, decode w = .ok i := by
  cases decode w <;> simp

/-! ## The opcode map -/

/-- The row of a command in the opcode map (30_encoding.md R76). -/
def Instr.row (i : Instr) : OpcodeRow :=
  ⟨i.mnemonic, i.format, i.opcode ++ 0#64, BitVec.allOnes 8 ++ i.format.zeroMask⟩

theorem opcodeMap_eq : opcodeMap = rowCommands.map Instr.row := by decide

theorem row_withOperand (x : Value) (i : Instr) : (i.withOperand x).row = i.row := by
  cases i <;> rfl

theorem withOperand_zero_mem_rowCommands (i : Instr) : i.withOperand 0 ∈ rowCommands := by
  cases i <;> simp [Instr.withOperand, rowCommands]

theorem row_mem_opcodeMap (i : Instr) : i.row ∈ opcodeMap := by
  rw [opcodeMap_eq, ← row_withOperand 0 i]
  exact List.mem_map_of_mem (withOperand_zero_mem_rowCommands i)

theorem mnemonic_eq_iff_of_mem : ∀ i ∈ rowCommands, ∀ j ∈ rowCommands,
    j.mnemonic = i.mnemonic ↔ j.opcode = i.opcode := by decide

/-- Mnemonics and opcodes name the same rows (30_encoding.md R76). -/
theorem mnemonic_eq_iff (i j : Instr) : j.mnemonic = i.mnemonic ↔ j.opcode = i.opcode := by
  have h := mnemonic_eq_iff_of_mem _ (withOperand_zero_mem_rowCommands i) _ (withOperand_zero_mem_rowCommands j)
  have hm (i : Instr) : (i.withOperand 0).mnemonic = i.mnemonic :=
    congrArg OpcodeRow.mnemonic (row_withOperand 0 i)
  rwa [hm, hm, opcode_withOperand, opcode_withOperand] at h

/-- A word matches a command's row exactly when it decodes to a command with that opcode. -/
theorem row_matches_iff (i : Instr) (w : CmdWord) :
    w &&& i.row.mask = i.row.pattern ↔ ∃ j, decode w = .ok j ∧ j.opcode = i.opcode := by
  rw [exists_decode_opcode_iff]
  refine (and_append_eq_append_iff (a := 8) (b := 64) w _ _ _ _).trans ?_
  rw [BitVec.and_allOnes]
  rfl

end Sys2Proof

/-! ## The statements -/

namespace Sys2Proof.Machine

/-- Settles O7: the equation of the decoder for each command's own word (`decode_encode`). -/
theorem decodeOfEncodeIsTheCommand : Obligations.DecodeOfEncodeIsTheCommand := decode_encode

/-- Settles O8: a word decodes only to the command whose word it is (`decode_eq_ok_iff`). -/
theorem encodeOfDecodeIsTheWord : Obligations.EncodeOfDecodeIsTheWord := fun _ _ => decode_eq_ok_iff.mp

/-- Settles O9: each row is a command's row, and the row of the command a word decodes to matches the word. -/
theorem decodeFollowsTheOpcodeMap : Obligations.DecodeFollowsTheOpcodeMap := by
  constructor
  · intro w row hrow
    rw [opcodeMap_eq] at hrow
    obtain ⟨i, -, rfl⟩ := List.mem_map.mp hrow
    rw [row_matches_iff]
    simp only [Instr.row, mnemonic_eq_iff]
  · intro w h
    rw [exists_error_iff]
    rintro ⟨i, hi⟩
    exact h i.row (row_mem_opcodeMap i) ((row_matches_iff i w).mpr ⟨i, hi, rfl⟩)

/-- An illegal word answers IllegalCommand and leaves everything else (30_encoding.md R78, 60_exceptions.md R208). -/
theorem runWord_of_error {w : CmdWord} {e : IllegalWord} (s : State) (h : decode w = .error e) :
    runWord w s = .next { s with rspOut := responded s .illegalCommand 0 } := by
  rw [runWord, h]
  rfl

/-- Settles O10: a word is illegal when its opcode has no format, or the must-be-zero bits of the format are not 0;
those are the three kinds of the rule. -/
theorem illegalWordsAreExactlyTheStatedOnes : Obligations.IllegalWordsAreExactlyTheStatedOnes := by
  refine ⟨fun w => ?_, fun w e s => runWord_of_error s⟩
  rw [exists_error_iff, exists_decode_iff, ← formatOfOpcode_eq_none_iff_range, ← formatOfOpcode_eq_z_iff,
    ← formatOfOpcode_eq_c_iff]
  change _ ↔ _ ∨ (_ ∧ valueField w ≠ 0) ∨ (_ ∧ charZeroField w ≠ 0)
  rw [(charFields_eq w).1]
  cases formatOfOpcode (opField w) with
  | none => simp
  | some f =>
    cases f with
    | z => simp [and_zeroMask_z]
    | c => simp [and_zeroMask_c]
    | v => simp [and_zeroMask_v]

/-- Settles O11: each word is the encoding of its command. -/
theorem sampleWordsDecode : Obligations.SampleWordsDecode :=
  ⟨decode_encode (.apush 0xFF), decode_encode (.ldlower 36), decode_encode .base,
    decode_encode (.encu 0xFFFFFFFFFFFFFFFF), decode_encode .opop, decode_encode (.dchar 0x2D), decode_encode .dend⟩

end Sys2Proof.Machine
end

section
/-! SUPPORT. The phases (30_encoding.md R86) as the flags VALID, BUILD and DACT, and the response of a command
(30_encoding.md R75). -/

namespace Sys2Proof.Machine

variable {i : Instr} {s t : State} {p : Phase}

/-! ## The response of a command -/

/-- A command that completes appends one response, whose data is 0 unless its status is 0 (30_encoding.md R75). -/
theorem Answers.response (h : Answers i s t) :
    ∃ st d, t.rspOut = s.rspOut ++ [rspWord st d] ∧ (st ≠ 0 → d = 0) := by
  have hok (d : Value) : statusCode .ok ≠ 0 → d = 0 := fun h => absurd rfl h
  cases h with
  | abegin | apushRepeat | apushNew | apushBeyond | acommitOk | base | opop => exact ⟨_, _, rfl, hok _⟩
  | dbegu | dbegs | dcharSign | dcharDigit => exact ⟨_, _, rfl, hok _⟩
  | preset hp =>
    rw [(hp.loaded s).rest]
    exact ⟨_, _, rfl, hok _⟩
  | encu _ hu =>
    rw [emitDigits_frame hu]
    exact ⟨_, _, rfl, hok _⟩
  | encs _ hu =>
    rw [emitSigned_frame hu]
    exact ⟨_, _, rfl, hok _⟩
  | dend =>
    obtain ⟨st, d, he, hd, -⟩ := sessionResult_eq { s with dact := false }
    rw [he]
    exact ⟨st, d, rfl, hd⟩
  | _ => exact ⟨_, 0, rfl, fun _ => rfl⟩

/-- Settles O29: the one response a command appends is that of `Answers.response`. -/
theorem errorResponsesCarryNoData : Obligations.ErrorResponsesCarryNoData := by
  intro i s t r h hr hst
  obtain ⟨st, d, hrsp, hd⟩ := (answers_of_exec h).response
  obtain rfl : r = rspWord st d := List.singleton_inj.mp (List.append_cancel_left (hr.symm.trans hrsp))
  rw [rspStatus_rspWord] at hst
  rw [rspData_rspWord, hd hst]

/-! ## The phases -/

/-- VALID in a phase (30_encoding.md R86). -/
def Phase.hasCodec : Phase → Bool
  | .empty | .building => false
  | .ready | .decoding => true

/-- BUILD in a phase (30_encoding.md R86). -/
def Phase.isBuilding : Phase → Bool
  | .building => true
  | .empty | .ready | .decoding => false

/-- DACT in a phase (30_encoding.md R86). -/
def Phase.hasSession : Phase → Bool
  | .decoding => true
  | .empty | .building | .ready => false

/-- A phase is its three flags. -/
theorem phaseOf_eq_some_iff : phaseOf s = some p ↔
    s.valid = p.hasCodec ∧ s.build = p.isBuilding ∧ s.dact = p.hasSession := by
  constructor
  · intro h
    unfold phaseOf at h
    split at h <;> cases h <;> exact ⟨by assumption, by assumption, by assumption⟩
  · rintro ⟨hv, hb, hd⟩
    rw [phaseOf, hv, hb, hd]
    cases p <;> rfl

theorem Phase.eq_building (h : p.isBuilding = true) : p = .building := by
  cases p with
  | building => rfl
  | _ => cases h

theorem Phase.eq_decoding (h : p.hasSession = true) : p = .decoding := by
  cases p with
  | decoding => rfl
  | _ => cases h

theorem Phase.not_building (h : p.hasCodec = true) : p.isBuilding = false := by
  cases p with
  | ready | decoding => rfl
  | empty | building => cases h

/-- Under the invariants one of the four phases is current (10_state.md R45 (d), (e)). -/
theorem Inv.exists_phase (h : Inv s) : ∃ p, phaseOf s = some p := by
  cases hb : s.build with
  | true =>
    obtain ⟨hv, hd⟩ := h.buildAlone hb
    exact ⟨.building, phaseOf_eq_some_iff.mpr ⟨hv, hb, hd⟩⟩
  | false =>
    cases hd : s.dact with
    | true => exact ⟨.decoding, phaseOf_eq_some_iff.mpr ⟨(h.sessionHasCodec hd).1, hb, hd⟩⟩
    | false =>
      cases hv : s.valid with
      | true => exact ⟨.ready, phaseOf_eq_some_iff.mpr ⟨hv, hb, hd⟩⟩
      | false => exact ⟨.empty, phaseOf_eq_some_iff.mpr ⟨hv, hb, hd⟩⟩

/-! ## The table of phases -/

/-- A flag a command can ask for (30_encoding.md R86): BUILD, VALID or DACT. -/
inductive Need where
  | build
  | codec
  | session

/-- Whether a state has the flag. -/
def Need.met (s : State) : Need → Bool
  | .build => s.build
  | .codec => s.valid
  | .session => s.dact

/-- Whether the states of a phase have the flag. -/
def Need.metIn (p : Phase) : Need → Bool
  | .build => p.isBuilding
  | .codec => p.hasCodec
  | .session => p.hasSession

/-- The status that turns a command away where the flag is 0 (30_encoding.md R86, 60_exceptions.md R206, R207). -/
def Need.status : Need → Status
  | .build => .badSequence
  | .codec => .noCodec
  | .session => .badSequence

/-- What each command asks for; ABEGIN, the preset loads and OPOP run in every phase (30_encoding.md R86). -/
def needOf : Instr → Option Need
  | .apush _ | .acommit => some .build
  | .base | .encu _ | .encs _ | .dbegu | .dbegs => some .codec
  | .dchar _ | .dend => some .session
  | .abegin | .ldlower _ | .ldupper _ | .ldb64 | .opop => none

theorem Need.met_eq_metIn (n : Need) (hp : phaseOf s = some p) : n.met s = n.metIn p := by
  obtain ⟨hv, hb, hd⟩ := phaseOf_eq_some_iff.mp hp
  cases n with
  | build => exact hb
  | codec => exact hv
  | session => exact hd

/-- The table of phases turns a command away exactly where the phase lacks the flag the command asks for. -/
theorem phaseStatus_eq (i : Instr) (p : Phase) :
    phaseStatus i p = (needOf i).bind fun n => if n.metIn p then none else some n.status := by
  cases i with
  | abegin | ldlower n | ldupper n | ldb64 | opop => rfl
  | apush c | acommit => cases p <;> rfl
  | base | encu n | encs n | dbegu | dbegs => cases p <;> rfl
  | dchar c | dend => cases p <;> rfl

/-- A command whose flag is 0 only responds with the flag's status. -/
theorem answers_of_not_met {n : Need} (hi : needOf i = some n) (hn : n.met s = false) :
    Answers i s (raise n.status s) := by
  cases i with
  | abegin | ldlower | ldupper | ldb64 | opop => cases hi
  | apush c => cases hi; exact .apushNoBuild hn
  | acommit => cases hi; exact .acommitNoBuild hn
  | base => cases hi; exact .baseNoCodec hn
  | encu v => cases hi; exact .encuNoCodec hn
  | encs v => cases hi; exact .encsNoCodec hn
  | dbegu => cases hi; exact .dbeguNoCodec hn
  | dbegs => cases hi; exact .dbegsNoCodec hn
  | dchar c => cases hi; exact .dcharNoSession hn
  | dend => cases hi; exact .dendNoSession hn

theorem answers_of_turnedAway {e : Status} (hp : phaseOf s = some p) (he : phaseStatus i p = some e) :
    Answers i s (raise e s) := by
  rw [phaseStatus_eq] at he
  obtain ⟨n, hi, he⟩ := Option.bind_eq_some_iff.mp he
  rw [← n.met_eq_metIn hp] at he
  cases hn : n.met s with
  | true => simp [hn] at he
  | false =>
    obtain rfl : n.status = e := by simpa [hn] using he
    exact answers_of_not_met hi hn

theorem met_of_runs {n : Need} (hp : phaseOf s = some p) (hr : phaseStatus i p = none) (hi : needOf i = some n) :
    n.met s = true := by
  rw [phaseStatus_eq, hi, Option.bind_some, ← n.met_eq_metIn hp] at hr
  by_contra hn
  simp [hn] at hr

theorem phaseOf_congr (hc : t.codecPart = s.codecPart) (hd : t.dact = s.dact) : phaseOf t = phaseOf s := by
  obtain ⟨hv, -, hb, -⟩ := codecPart_eq_iff.mp hc
  rw [phaseOf, phaseOf, hv, hb, hd]

theorem IsPreset.ready_mem_nextPhases {ref : List Byte} {char : Nat → Byte} {n : Nat} (hp : IsPreset i ref char n)
    (p : Phase) : .ready ∈ nextPhases i p := by
  cases hp with
  | lower | upper | b64 => exact List.mem_cons_self

/-- A command whose flag is 1 leads to a phase that the table gives for it (30_encoding.md R86). -/
theorem Answers.exists_nextPhase (h : Answers i s t) (hp : phaseOf s = some p)
    (hn : ∀ n, needOf i = some n → n.met s = true) : ∃ q, q ∈ nextPhases i p ∧ phaseOf t = some q := by
  obtain ⟨hv, hb, hd⟩ := phaseOf_eq_some_iff.mp hp
  cases h with
  | abegin => exact ⟨.building, List.mem_singleton_self _, rfl⟩
  | apushNoBuild | apushRepeat | apushNew | apushBeyond => exact ⟨p, List.mem_singleton_self p, hp⟩
  | acommitNoBuild hb' => cases hb'.symm.trans (hn .build rfl)
  | acommitSize hb' | acommitRepeat hb' =>
    obtain rfl := Phase.eq_building (hb.symm.trans hb')
    exact ⟨.empty, by simp [nextPhases], phaseOf_eq_some_iff.mpr ⟨hv, rfl, hd⟩⟩
  | acommitOk hb' =>
    obtain rfl := Phase.eq_building (hb.symm.trans hb')
    exact ⟨.ready, by simp [nextPhases], phaseOf_eq_some_iff.mpr ⟨rfl, rfl, hd⟩⟩
  | preset hpr =>
    refine ⟨.ready, hpr.ready_mem_nextPhases p, ?_⟩
    rw [(hpr.loaded s).rest]
    rfl
  | ldlowerIllegal | ldupperIllegal => exact ⟨.empty, by simp [nextPhases], rfl⟩
  | baseNoCodec | base | encuNoCodec | encsNoCodec | opopEmpty | opop => exact ⟨p, List.mem_singleton_self p, hp⟩
  | encu _ hu =>
    obtain ⟨hc, -, hda⟩ := frame_of_output_rest (emitDigits_frame hu)
    exact ⟨p, List.mem_singleton_self p, (phaseOf_congr hc hda).trans hp⟩
  | encs _ hu =>
    obtain ⟨hc, -, hda⟩ := frame_of_output_rest (emitSigned_frame hu)
    exact ⟨p, List.mem_singleton_self p, (phaseOf_congr hc hda).trans hp⟩
  | dbeguNoCodec hv' | dbegsNoCodec hv' => cases hv'.symm.trans (hn .codec rfl)
  | dbegu hv' | dbegs hv' =>
    have hb' : s.build = false := hb.trans (Phase.not_building (hv.symm.trans hv'))
    exact ⟨.decoding, List.mem_singleton_self _, phaseOf_eq_some_iff.mpr ⟨hv', hb', rfl⟩⟩
  | dcharNoSession | dcharLatched | dcharSign | dcharUnknown | dcharOverflow | dcharDigit =>
    exact ⟨p, List.mem_singleton_self p, hp⟩
  | dendNoSession hd' => cases hd'.symm.trans (hn .session rfl)
  | dend hd' =>
    obtain rfl := Phase.eq_decoding (hd.symm.trans hd')
    obtain ⟨hc, -, -, hda⟩ := sessionResult_frame { s with dact := false }
    refine ⟨.ready, List.mem_singleton_self _, (phaseOf_congr hc hda).trans ?_⟩
    exact phaseOf_eq_some_iff.mpr ⟨hv, hb, rfl⟩

/-- Settles O27: a command the table turns away lacks its flag, and a command that runs has it
(`Answers.exists_nextPhase`). -/
theorem commandsFollowThePhaseTable : Obligations.CommandsFollowThePhaseTable :=
  ⟨fun _ h => h.exists_phase, fun _ _ _ _ hp he => (answers_of_turnedAway hp he).exec,
    fun _ _ _ _ hp hr h => (answers_of_exec h).exists_nextPhase hp fun _ => met_of_runs hp hr,
    fun _ _ s h => runWord_of_error s h⟩

end Sys2Proof.Machine
end

section
/-! SUPPORT. The commands of alphabet_rom (40_alphabet.md R102 to R118). The commands that begin with `clear_codec()`
are told apart by how they go on: they load a preset (`IsPreset`), or load nothing (`ClearsCodec`). -/

namespace Sys2Proof.Machine

variable {i : Instr} {s t : State} {b : Bool} {e : Status} {ref : List Byte} {char : Nat → Byte} {n : Nat}

/-! ## The start of a construction -/

/-- The commands that run `clear_codec()` and load nothing, with the value of BUILD and the status they end with
(40_alphabet.md R102, R110, R112). -/
inductive ClearsCodec : Instr → Bool → Status → Prop
  | abegin : ClearsCodec .abegin true .ok
  | lower {n : Value} (hn : n.toNat < 2 ∨ 36 < n.toNat) : ClearsCodec (.ldlower n) false .invalidAlphabetSize
  | upper {n : Value} (hn : n.toNat < 2 ∨ 36 < n.toNat) : ClearsCodec (.ldupper n) false .invalidAlphabetSize

theorem ClearsCodec.answers (hc : ClearsCodec i b e) (s : State) :
    Answers i s (raise e { clearCodec s with build := b }) := by
  cases hc with
  | abegin => exact .abegin
  | lower hn => exact .ldlowerIllegal hn
  | upper hn => exact .ldupperIllegal hn

theorem ClearsCodec.completes (hc : ClearsCodec i b e) (s : State) :
    ∃ t, exec i s = .next t ∧ CodecCleared b e s t :=
  ⟨_, (hc.answers s).exec, codecCleared_clearCodec b e s⟩

theorem ClearsCodec.cleared (hc : ClearsCodec i b e) (h : exec i s = .next t) : CodecCleared b e s t := by
  obtain rfl := (answers_of_exec h).unique (hc.answers s)
  exact codecCleared_clearCodec b e s

theorem IsPreset.completes (hp : IsPreset i ref char n) (s : State) :
    ∃ t, exec i s = .next t ∧ PresetLoaded char n s t :=
  ⟨_, (Answers.preset hp).exec, hp.loaded s⟩

theorem IsPreset.loaded_of_exec (hp : IsPreset i ref char n) (h : exec i s = .next t) : PresetLoaded char n s t := by
  obtain rfl := (answers_of_exec h).unique (.preset hp)
  exact hp.loaded s

/-- The operand alone decides which of the two a construction's first command is, not the state before it. -/
theorem clearsCodec_or_isPreset
    (hi : i = .abegin ∨ (∃ n, i = .ldlower n) ∨ (∃ n, i = .ldupper n) ∨ i = .ldb64) :
    (∃ b e, ClearsCodec i b e) ∨ (∃ ref char n, IsPreset i ref char n) := by
  obtain rfl | ⟨n, rfl⟩ | ⟨n, rfl⟩ | rfl := hi
  · exact .inl ⟨_, _, .abegin⟩
  · by_cases hn : n.toNat < 2 ∨ 36 < n.toNat
    · exact .inl ⟨_, _, .lower hn⟩
    · exact .inr ⟨_, _, _, .lower (by omega) (by omega)⟩
  · by_cases hn : n.toNat < 2 ∨ 36 < n.toNat
    · exact .inl ⟨_, _, .upper hn⟩
    · exact .inr ⟨_, _, _, .upper (by omega) (by omega)⟩
  · exact .inr ⟨_, _, _, .b64⟩

/-- Settles O15: the two cases of the operand (40_alphabet.md R110). -/
theorem ldlowerLoadsTheLowerCasePreset : Obligations.LdlowerLoadsTheLowerCasePreset := fun n s =>
  ⟨decode_encode (.ldlower n), fun hmin hmax => (IsPreset.lower hmin hmax).completes s,
    fun hn => (ClearsCodec.lower hn).completes s⟩

/-- Settles O16: the two cases of the operand (40_alphabet.md R112). -/
theorem ldupperLoadsTheUpperCasePreset : Obligations.LdupperLoadsTheUpperCasePreset := fun n s =>
  ⟨decode_encode (.ldupper n), fun hmin hmax => (IsPreset.upper hmin hmax).completes s,
    fun hn => (ClearsCodec.upper hn).completes s⟩

/-- Settles O17: LDB64 has no operand to refuse (40_alphabet.md R114). -/
theorem ldbLoadsTheBaseSixtyFourPreset : Obligations.LdbLoadsTheBaseSixtyFourPreset :=
  ⟨decode_encode .ldb64, IsPreset.b64.completes⟩

/-- Settles O44: both states take the same one of the two ways, and either way writes all that is read of the codec and
closes the session. -/
theorem constructionForgetsWhatWasBefore : Obligations.ConstructionForgetsWhatWasBefore := by
  intro i s t s' t' hi hpos hbuf hrsp hs ht
  obtain ⟨b, e, hc⟩ | ⟨ref, char, n, hp⟩ := clearsCodec_or_isPreset hi
  · exact (hc.cleared hs).sameToHost (hc.cleared ht) hpos hbuf hrsp
  · exact (hp.loaded_of_exec hs).sameToHost (hp.loaded_of_exec ht) hpos hbuf hrsp

/-- Settles O12: ABEGIN only clears the codec and sets BUILD (40_alphabet.md R102). -/
theorem abeginOpensAnEmptyConstruction : Obligations.AbeginOpensAnEmptyConstruction :=
  ⟨decode_encode .abegin, ClearsCodec.abegin.completes⟩

/-! ## The builder -/

/-- A new character takes digit ACNT; the entry it writes holds that number in 8 bits (40_alphabet.md R104). -/
theorem exec_apush_new {c : Byte} (hb : s.build = true) (hn : s.acnt.toNat ≤ 255)
    (hv : s.rlutV.read c.toNat = some 0) :
    exec (.apush c) s = .next { s with
      alpha := s.alpha.write s.acnt.toNat c
      rlutV := s.rlutV.write c.toNat 1
      rlutD := s.rlutD.write c.toNat (s.acnt.setWidth 8)
      acnt := s.acnt + 1
      rspOut := responded s .ok 0 } := by
  rw [← countNext_eq_add (by omega), ← BitVec.ofNat_toNat]
  exact (Answers.apushNew hb hn hv).exec

/-- Settles O13: one constructor of `Answers` for each case; the count goes up by one, or beyond 256 is 257. -/
theorem apushOffersTheNextDigit : Obligations.ApushOffersTheNextDigit := by
  intro c s
  refine ⟨decode_encode (.apush c), fun hb => (Answers.apushNoBuild hb).exec, fun hb hn hv => ?_, fun hb hn hv => ?_,
    fun hb hn => ?_⟩
  · rw [← countNext_eq_add (by omega)]
    exact (Answers.apushRepeat hb hn hv).exec
  · exact ⟨_, exec_apush_new hb hn hv, rfl, Memory.read_write _ _ _, Memory.read_write _ _ _, Memory.read_write _ _ _⟩
  · rw [← countNext_saturates hn]
    exact (Answers.apushBeyond hb hn).exec

/-- Settles O14: one constructor of `Answers` for each case (40_alphabet.md R106). -/
theorem acommitChecksSizeThenDuplicate : Obligations.AcommitChecksSizeThenDuplicate :=
  ⟨decode_encode .acommit, fun _ => ⟨fun hb => (Answers.acommitNoBuild hb).exec,
    fun hb hn => (Answers.acommitSize hb hn).exec,
    fun hb hmin hmax hd => (Answers.acommitRepeat hb hmin hmax hd).exec,
    fun hb hmin hmax hd => (Answers.acommitOk hb hmin hmax hd).exec⟩⟩

/-! ## The query -/

/-- Settles O18: one constructor of `Answers` for each case (40_alphabet.md R116). -/
theorem baseAnswersTheRadix : Obligations.BaseAnswersTheRadix :=
  ⟨decode_encode .base, fun _ => ⟨fun hv => (Answers.base hv).exec, fun hv => (Answers.baseNoCodec hv).exec⟩⟩

end Sys2Proof.Machine
end

section
/-! SUPPORT. The commands of radix_encoder (41_encode.md R120 to R130): the strings they store, and the value and the
length of those strings. -/

namespace Sys2Proof.Machine

variable {r v : Nat} {A : Nat → Byte}

/-! ## The digits of a value -/

/-- The recursion of `digits` as an induction (41_encode.md R130): a value below the radix is one character, any other
is its quotient's digits and one character more. -/
theorem digits_induction {P : Nat → List Byte → Prop} (hr : 2 ≤ r) (single : ∀ v, v < r → P v [A v])
    (more : ∀ v, r ≤ v → v < 2 ^ 64 → P (v / r) (digits r A (v / r)) → P v (digits r A (v / r) ++ [A (v % r)])) :
    ∀ v, v < 2 ^ 64 → P v (digits r A v) := by
  intro v
  induction v using Nat.strong_induction_on with
  | _ v ih =>
    intro hv
    rw [digits_eq r A hr v hv]
    split
    · exact single v ‹_›
    · have hle : r ≤ v := by omega
      have hdiv : v / r < v := Nat.div_lt_self (by omega) hr
      exact more v hle hv (ih (v / r) hdiv (by omega))

theorem digits_length_pos (r : Nat) (A : Nat → Byte) (v : Nat) : 0 < (digits r A v).length :=
  digitsFuel_length_pos r A 63 v

/-- A digit is looked up from its own character when the characters are distinct (42_decode.md R156). -/
theorem lookupIn_digit (hA : ∀ i j, i < r → j < r → A i = A j → i = j) {d : Nat} (hd : d < r) :
    lookupIn r A (A d) = some d := by
  have hsome : (lookupIn r A (A d)).isSome = true :=
    List.find?_isSome.mpr ⟨d, List.mem_range.mpr hd, beq_self_eq_true (A d)⟩
  obtain ⟨e, he⟩ := Option.isSome_iff_exists.mp hsome
  obtain ⟨her, hchar⟩ := lookupIn_some he
  rw [he, hA e d her hd hchar]

/-- The value of one string after another continues from the value of the first (42_decode.md R158). -/
theorem valueFrom_append (L : Byte → Option Nat) (str str' : List Byte) : ∀ a : Nat,
    valueFrom r L a (str ++ str') = (valueFrom r L a str).bind fun b => valueFrom r L b str' := by
  induction str with
  | nil => intro a; rfl
  | cons c w ih =>
    intro a
    simp only [List.cons_append, valueFrom]
    cases L c with
    | none => rfl
    | some d => exact ih (a * r + d)

/-- The digits of a value have that value (41_encode.md R130). -/
theorem valueFrom_digits (hr : 2 ≤ r) (hA : ∀ i j, i < r → j < r → A i = A j → i = j) :
    ∀ v, v < 2 ^ 64 → valueFrom r (lookupIn r A) 0 (digits r A v) = some v := by
  refine digits_induction (P := fun v str => valueFrom r (lookupIn r A) 0 str = some v) hr
    (fun v hlt => ?_) (fun v _ _ ih => ?_)
  · simp [valueFrom, lookupIn_digit hA hlt]
  · have hmod : v % r < r := Nat.mod_lt v (by omega)
    rw [valueFrom_append, ih]
    simp [valueFrom, lookupIn_digit hA hmod, Nat.div_add_mod']

/-- The first digit is 0 for the value 0 only: no leading zero (41_encode.md R130). -/
theorem eq_zero_of_digits_head (hr : 2 ≤ r) (hA : ∀ i j, i < r → j < r → A i = A j → i = j) :
    ∀ v, v < 2 ^ 64 → (digits r A v)[0]? = some (A 0) → v = 0 := by
  refine digits_induction (P := fun v str => str[0]? = some (A 0) → v = 0) hr
    (fun v hlt hhead => ?_) (fun v hle _ ih hhead => ?_)
  · exact hA v 0 hlt (by omega) (Option.some.inj hhead)
  · rw [List.getElem?_append_left (digits_length_pos r A (v / r))] at hhead
    have hquot : 0 < v / r := Nat.div_pos hle (by omega)
    exact absurd (ih hhead) hquot.ne'

theorem digits_zero (hr : 2 ≤ r) : digits r A 0 = [A 0] := by
  rw [digits_eq r A hr 0 (by decide), if_pos (by omega)]

/-! ## The number of digits -/

theorem ndig_of_lt (hlt : v < r) : ndig v r = 1 :=
  le_antisymm (ndig_le le_rfl (by rwa [pow_one])) (one_le_ndig v r)

/-- The quotient by the radix has one digit less (41_encode.md R126). -/
theorem ndig_of_le (hr : 2 ≤ r) (hle : r ≤ v) (hv : v < 2 ^ 64) : ndig v r = ndig (v / r) r + 1 := by
  have hr0 : 0 < r := by omega
  have hquot : v / r < 2 ^ 64 := (Nat.div_le_self v r).trans_lt hv
  apply le_antisymm
  · refine ndig_le (Nat.le_add_left 1 _) ?_
    rw [pow_succ]
    exact (Nat.div_lt_iff_lt_mul hr0).mp (lt_pow_ndig hr hquot)
  · obtain ⟨k, hk⟩ := Nat.exists_eq_add_of_le' (one_le_ndig v r)
    have hpow : v < r ^ k * r := by rw [← pow_succ, ← hk]; exact lt_pow_ndig hr hv
    have hk1 : 1 ≤ k := by
      by_contra h0
      obtain rfl : k = 0 := by omega
      rw [pow_zero, one_mul] at hpow
      omega
    rw [hk]
    exact Nat.succ_le_succ (ndig_le hk1 ((Nat.div_lt_iff_lt_mul hr0).mpr hpow))

/-- A larger value has no fewer digits (41_encode.md R126). -/
theorem ndig_mono {w : Nat} (hr : 2 ≤ r) (hvw : v ≤ w) (hw : w < 2 ^ 64) : ndig v r ≤ ndig w r :=
  ndig_le (one_le_ndig w r) (hvw.trans_lt (lt_pow_ndig hr hw))

/-- No value of 64 bits has more than 64 digits (41_encode.md R126). -/
theorem ndig_le_64 (hr : 2 ≤ r) (hv : v < 2 ^ 64) : ndig v r ≤ 64 :=
  ndig_le (by decide) (hv.trans_le (Nat.pow_le_pow_left hr 64))

/-- The digits of a value are `ndig` many (41_encode.md R126, R130). -/
theorem digits_length (hr : 2 ≤ r) (A : Nat → Byte) : ∀ v, v < 2 ^ 64 → (digits r A v).length = ndig v r := by
  refine digits_induction (P := fun v str => str.length = ndig v r) hr
    (fun v hlt => ?_) (fun v hle hv ih => ?_)
  · rw [ndig_of_lt hlt, List.length_singleton]
  · rw [ndig_of_le hr hle hv, ← ih, List.length_append, List.length_singleton]

/-- Settles O57: each of the three by the recursion of `digits` (`digits_induction`). -/
theorem digitsRepresentTheValue : Obligations.DigitsRepresentTheValue := by
  intro r A v hr hA hv
  refine ⟨valueFrom_digits hr hA v hv, digits_length hr A v hv, fun hhead => ?_⟩
  obtain rfl := eq_zero_of_digits_head hr hA v hv hhead
  exact ⟨rfl, digits_zero hr⟩

/-! ## The lengths of the outputs -/

/-- The magnitude of a negative pattern is at most `2^63` (41_encode.md R124). -/
theorem neg64_toNat_le {n : Value} (hneg : isNegative n = true) : (neg64 n).toNat ≤ 2 ^ 63 := by
  have hge := (isNegative_iff n).mp hneg
  rw [neg64_toNat]
  omega

theorem encU_length (hr : 2 ≤ r) (A : Nat → Byte) (n : Value) : (encU r A n).length = ndig n.toNat r :=
  digits_length hr A n.toNat n.isLt

/-- A negative operand takes its magnitude's digits and the sign (41_encode.md R126). -/
theorem encS_length_of_negative {n : Value} (hr : 2 ≤ r) (A : Nat → Byte) (hneg : isNegative n = true) :
    (encS r A n).length = ndig (neg64 n).toNat r + 1 := by
  rw [encS, if_pos hneg, List.length_cons, digits_length hr A _ (neg64 n).isLt]

/-- A pattern that is not negative is encoded as an unsigned one (41_encode.md R130). -/
theorem encS_of_not_negative {n : Value} (r : Nat) (A : Nat → Byte) (hneg : ¬ isNegative n = true) :
    encS r A n = encU r A n := if_neg hneg

theorem encU_length_le (hr : 2 ≤ r) (A : Nat → Byte) (n : Value) : (encU r A n).length ≤ longestUnsigned r := by
  have hmax : n.toNat ≤ 2 ^ 64 - 1 := by omega
  rw [encU_length hr]
  exact ndig_mono hr hmax (by decide)

theorem one_le_encU_length (r : Nat) (A : Nat → Byte) (n : Value) : 1 ≤ (encU r A n).length :=
  digits_length_pos r A n.toNat

/-- Settles O58: the length is `ndig` of the operand, or of its magnitude with the sign, and `ndig` is monotone. -/
theorem outputLengthsAreBounded : Obligations.OutputLengthsAreBounded := by
  intro r A n hr _
  have hsigned : longestSigned r ≤ 65 := Nat.succ_le_succ (ndig_le_64 hr (by decide))
  have hlen : 1 ≤ (encS r A n).length ∧ (encS r A n).length ≤ max (longestUnsigned r) (longestSigned r) := by
    by_cases hneg : isNegative n = true
    · rw [encS_length_of_negative hr A hneg]
      have hle : ndig (neg64 n).toNat r + 1 ≤ longestSigned r :=
        Nat.succ_le_succ (ndig_mono hr (neg64_toNat_le hneg) (by decide))
      exact ⟨Nat.le_add_left 1 _, le_max_of_le_right hle⟩
    · rw [encS_of_not_negative r A hneg]
      exact ⟨one_le_encU_length r A n, le_max_of_le_left (encU_length_le hr A n)⟩
  exact ⟨one_le_encU_length r A n, encU_length_le hr A n, ndig_le_64 hr (by decide), hlen.1, hlen.2, hsigned⟩

/-! ## The commands -/

/-- Settles O19: with no codec ENCU is turned away; with one `emitDigits_spec` gives the string (41_encode.md R122). -/
theorem encuStoresTheUnsignedDigits : Obligations.EncuStoresTheUnsignedDigits := by
  intro n s
  refine ⟨decode_encode (.encu n), fun hv => (Answers.encuNoCodec hv).exec, fun A hv hmin hmax hA => ?_⟩
  obtain ⟨u, hu, hem⟩ := emitDigits_spec A n s hmin hmax hA
  exact ⟨_, (Answers.encu hv hu).exec, hem.outputStored⟩

/-- Settles O20: as O19, with the sign in front of the magnitude's digits (`emitSigned_spec`; 41_encode.md R124). -/
theorem encsStoresTheSignAndTheMagnitude : Obligations.EncsStoresTheSignAndTheMagnitude := by
  intro n s
  refine ⟨decode_encode (.encs n), fun hv => (Answers.encsNoCodec hv).exec, fun A hv hmin hmax hA => ?_⟩
  obtain ⟨u, hu, hem⟩ := emitSigned_spec A n s hmin hmax hA
  exact ⟨_, (Answers.encs hv hu).exec, hem.outputStored⟩

/-- Settles O21: one constructor of `Answers` for each case (41_encode.md R128). -/
theorem opopTakesTheNextCharacter : Obligations.OpopTakesTheNextCharacter :=
  ⟨decode_encode .opop, fun _ => ⟨fun _ ho hc => (Answers.opop ho hc).exec, fun ho => (Answers.opopEmpty ho).exec⟩⟩

end Sys2Proof.Machine
end

section
/-! SUPPORT. The commands of radix_decoder and overflow_detector (42_decode.md R142 to R160): each command, its
arithmetic, and the sessions, which compute `dec_u` and `dec_s`. -/

namespace Sys2Proof.Machine

variable {s t : State} {r a b : Nat} {A : Nat → Byte} {L : Byte → Option Nat} {c : Byte} {w : List Byte}

/-! ## The tests -/

/-- The exact test is the pre-check by division: `acc * radix` is above `2^64 - 1 - d` (42_decode.md R150). -/
theorem unsignedOverflow_mulAdd_iff (acc : Value) (radix : BitVec 9) (d : Byte) (hr : 0 < radix.toNat) :
    unsignedOverflow (mulAdd acc radix d) = true ↔ (2 ^ 64 - 1 - d.toNat) / radix.toNat < acc.toNat := by
  rw [unsignedOverflow_iff, mulAdd, Nat.div_lt_iff_lt_mul hr]
  omega

/-- Settles O55: the pre-check of `unsignedOverflow_mulAdd_iff`; a sum that passes fits in 64 bits (R160). -/
theorem unsignedOverflowIsThePrecheck : Obligations.UnsignedOverflowIsThePrecheck := by
  intro acc radix d hr
  refine ⟨unsignedOverflow_mulAdd_iff acc radix d (by omega), fun hfit => ?_⟩
  have hlt : mulAdd acc radix d < 2 ^ 64 := by
    by_contra hge
    exact Bool.eq_false_iff.mp hfit ((unsignedOverflow_iff _).mpr (Nat.le_of_not_lt hge))
  exact (BitVec.toNat_ofNat _ _).trans (Nat.mod_eq_of_lt hlt)

/-- The patterns up to `2^63` negate to their negative, the largest of them to itself (42_decode.md R152). -/
theorem s64_neg64 {u : Value} (hu : u.toNat ≤ 2 ^ 63) : s64 (neg64 u) = -(u.toNat : Int) := by
  rw [s64, neg64_toNat]
  split <;> omega

theorem s64_of_lt {u : Value} (hu : u.toNat < 2 ^ 63) : s64 u = u.toNat := if_pos hu

/-- The overflow_detector as one bound, which DNEG raises by one (42_decode.md R152). -/
theorem signedOverflow_iff_lt (u : Value) (g : Bool) :
    signedOverflow u g = true ↔ 2 ^ 63 - 1 + (if g then 1 else 0) < u.toNat := by
  rw [signedOverflow_eq_true]
  cases g with
  | false => simp; omega
  | true => simp; omega

/-- Settles O56: all three from the one bound, `2^63 - 1` without the sign and `2^63` under it. -/
theorem signedOverflowIsTheSignedRange : Obligations.SignedOverflowIsTheSignedRange := by
  intro u g
  refine ⟨signedOverflow_iff_lt u g, ?_, fun hin => ?_⟩
  · rw [signedOverflow_iff_lt]
    cases g with
    | false => simp
    | true => simp
  · have hle := mt (signedOverflow_iff_lt u g).mpr (Bool.eq_false_iff.mp hin)
    cases g with
    | false => exact s64_of_lt (u := u) (by simp at hle; omega)
    | true => exact s64_neg64 (by simpa using hle)

/-! ## The response of DEND -/

theorem sessionResponse_of_latched (he : s.derr ≠ 0) : sessionResponse s.sessionPart = (s.derr, 0) := if_pos he

theorem sessionResponse_of_empty (he : s.derr = 0) (ha : s.dany = false) :
    sessionResponse s.sessionPart = (statusCode .emptyInput, 0) := by
  simp [sessionResponse, State.sessionPart, he, ha]

theorem sessionResponse_of_unsigned (he : s.derr = 0) (ha : s.dany = true) (hg : s.dsgn = false) :
    sessionResponse s.sessionPart = (statusCode .ok, s.dacc) := by
  simp [sessionResponse, State.sessionPart, he, ha, hg]

/-- In a signed session the range is tested first, then the negation is applied (42_decode.md R148, R152). -/
theorem sessionResponse_of_signed (he : s.derr = 0) (ha : s.dany = true) (hg : s.dsgn = true) :
    sessionResponse s.sessionPart =
      if 2 ^ 63 ≤ s.dacc.toNat ∧ ¬(s.dneg = true ∧ s.dacc.toNat = 2 ^ 63) then (statusCode .overflow, 0)
      else if s.dneg = true then (statusCode .ok, neg64 s.dacc)
      else (statusCode .ok, s.dacc) := by
  simp only [← signedOverflow_eq_true]
  simp [sessionResponse, State.sessionPart, he, ha, hg]

/-- DEND in an open session closes it and gives the session's response (42_decode.md R148). -/
theorem exec_dend_of_open {st : BitVec 4} {d : Value} (hda : s.dact = true)
    (h : sessionResponse s.sessionPart = (st, d)) :
    exec .dend s = .next { s with dact := false, rspOut := s.rspOut ++ [rspWord st d] } := by
  have hp : { s with dact := false }.sessionPart = s.sessionPart := rfl
  rw [(Answers.dend hda).exec, sessionResult_eq_respond, hp, h]
  rfl

/-! ## The commands -/

/-- Settles O22: one constructor of `Answers` for each case (42_decode.md R142). -/
theorem dbeguOpensAnUnsignedSession : Obligations.DbeguOpensAnUnsignedSession :=
  ⟨decode_encode .dbegu, fun _ => ⟨fun hv => (Answers.dbegu hv).exec, fun hv => (Answers.dbeguNoCodec hv).exec⟩⟩

/-- Settles O23: one constructor of `Answers` for each case (42_decode.md R144). -/
theorem dbegsOpensASignedSession : Obligations.DbegsOpensASignedSession :=
  ⟨decode_encode .dbegs, fun _ => ⟨fun hv => (Answers.dbegs hv).exec, fun hv => (Answers.dbegsNoCodec hv).exec⟩⟩

/-- Settles O24: one constructor of `Answers` for each case, a digit's sum being below 2^64 or not
(42_decode.md R146, R150). -/
theorem dcharTakesSignLooksUpAndAccumulates : Obligations.DcharTakesSignLooksUpAndAccumulates := by
  intro c s
  have hdigit (hsg : ¬(s.dsgn = true ∧ s.dfirst = true ∧ c = 0x2D)) : takesSign s.dsgn s.dfirst c = false :=
    Bool.eq_false_iff.mpr (mt (takesSign_iff _ _ _).mp hsg)
  refine ⟨decode_encode (.dchar c), fun hda => (Answers.dcharNoSession hda).exec,
    fun hda he => (Answers.dcharLatched hda he).exec,
    fun hda he hsg => (Answers.dcharSign hda he ((takesSign_iff _ _ _).mpr hsg)).exec,
    fun hda he hsg hv => (Answers.dcharUnknown hda he (hdigit hsg) hv).exec,
    fun d hda he hsg hv hd => ?_⟩
  split
  · exact (Answers.dcharOverflow hda he (hdigit hsg) hv hd ‹_›).exec
  · exact (Answers.dcharDigit hda he (hdigit hsg) hv hd (Nat.lt_of_not_le ‹_›)).exec

/-- Settles O25: the cases of `sessionResponse`, in the order of DEND's tests (42_decode.md R148). -/
theorem dendDeliversTheResult : Obligations.DendDeliversTheResult := by
  refine ⟨decode_encode .dend, fun s => ⟨fun hda => (Answers.dendNoSession hda).exec,
    fun hda he => exec_dend_of_open hda (sessionResponse_of_latched he),
    fun hda he ha => exec_dend_of_open hda (sessionResponse_of_empty he ha),
    fun hda he ha hg => exec_dend_of_open hda (sessionResponse_of_unsigned he ha hg),
    fun hda he ha hg => ?_⟩⟩
  have hrsp := sessionResponse_of_signed he ha hg
  rw [neg64_eq_neg] at hrsp
  split_ifs at hrsp ⊢ <;> exact exec_dend_of_open hda hrsp

/-- No DCHAR closes the session or changes its kind (42_decode.md R146). -/
theorem Answers.dchar_frame (h : Answers (.dchar c) s t) : t.dact = s.dact ∧ t.dsgn = s.dsgn := by
  cases h with
  | dcharNoSession | dcharLatched | dcharSign | dcharUnknown | dcharOverflow | dcharDigit => exact ⟨rfl, rfl⟩
  | preset hp => cases hp

/-- DEND writes no session register but DACT (42_decode.md R148). -/
theorem Answers.dend_frame (h : Answers .dend s t) : t.sessionPart = s.sessionPart := by
  cases h with
  | dendNoSession => rfl
  | dend => exact (sessionResult_frame _).2.2.1
  | preset hp => cases hp

/-- Settles O38: the frames of the two commands. -/
theorem dcharAndDendFrame : Obligations.DcharAndDendFrame :=
  ⟨fun _ _ _ h => (answers_of_exec h).dchar_frame,
    fun _ _ h => sessionPart_eq_iff.mp (answers_of_exec h).dend_frame⟩

/-! ## Lists of commands -/

/-- A list of commands runs on from where the list before it ended (20_memory.md R60). -/
theorem runInstrs_append {is js : List Instr} (h : runInstrs is s = .next t) :
    runInstrs (is ++ js) s = runInstrs js t := by
  induction is generalizing s with
  | nil => cases h; rfl
  | cons i is ih =>
    simp only [runInstrs] at h
    split at h
    · rename_i u hu
      exact (runInstrs_cons (answers_of_exec hu)).trans (ih h)
    · cases h
    · cases h

theorem runInstrs_singleton {i : Instr} (s : State) : runInstrs [i] s = exec i s := by
  simp only [runInstrs]
  split <;> simp [*]

/-- Settles O53: the characters change nothing but the responses (`runInstrs_dchar_latched`), so DEND still finds the
error latched. -/
theorem latchedErrorIsFinal : Obligations.LatchedErrorIsFinal := by
  intro str s hda he
  have hchars := runInstrs_dchar_latched str s hda he
  refine ⟨hchars, ?_⟩
  have hend (rs : List RspWord) : exec .dend { s with rspOut := rs } =
      .next { s with dact := false, rspOut := rs ++ [rspWord s.derr 0] } :=
    exec_dend_of_open hda (sessionResponse_of_latched he)
  rw [runInstrs_append hchars, runInstrs_singleton, hend, List.append_assoc, ← List.replicate_succ']

/-! ## The reference functions -/

theorem accFrom_unknown (hL : L c = none) : accFrom r L a (c :: w) = .error .invalidCharacter := by
  simp [accFrom, hL]

theorem accFrom_overflow {d : Nat} (hL : L c = some d) (hover : 2 ^ 64 ≤ a * r + d) :
    accFrom r L a (c :: w) = .error .overflow := by
  simp only [accFrom, hL, if_pos hover]

theorem accFrom_digit {d : Nat} (hL : L c = some d) (hfit : a * r + d < 2 ^ 64) :
    accFrom r L a (c :: w) = accFrom r L (a * r + d) w := by
  simp only [accFrom, hL, if_neg (Nat.not_le_of_lt hfit)]

/-- One character decides: it has no digit, its sum is 2^64 or more, or the sum goes on (42_decode.md R156). -/
theorem nextDigit_cases (r : Nat) (L : Byte → Option Nat) (a : Nat) (c : Byte) :
    L c = none ∨ (∃ d, L c = some d ∧ 2 ^ 64 ≤ a * r + d) ∨ (∃ d, L c = some d ∧ a * r + d < 2 ^ 64) := by
  cases hL : L c with
  | none => exact .inl rfl
  | some d => exact .inr ((Nat.lt_or_ge (a * r + d) (2 ^ 64)).symm.imp (⟨d, rfl, ·⟩) (⟨d, rfl, ·⟩))

/-- The accumulation accepts exactly the digits of a value below 2^64: values never fall (`le_of_valueFrom`), so a sum
of 2^64 or more is final (42_decode.md R158). -/
theorem accFrom_eq_ok_iff (hr : 1 ≤ r) (str : List Byte) : ∀ {a : Nat}, a < 2 ^ 64 →
    (accFrom r L a str = .ok b ↔ valueFrom r L a str = some b ∧ b < 2 ^ 64) := by
  induction str with
  | nil =>
    intro a ha
    simp only [accFrom, valueFrom, Except.ok.injEq, Option.some.injEq, iff_self_and]
    rintro rfl
    exact ha
  | cons c w ih =>
    intro a _
    obtain hL | ⟨d, hL, hover⟩ | ⟨d, hL, hfit⟩ := nextDigit_cases r L a c
    · simp [accFrom_unknown hL, valueFrom, hL]
    · simp only [accFrom_overflow hL hover, valueFrom, hL, reduceCtorEq, false_iff, not_and]
      intro hval
      have := le_of_valueFrom hr w hval
      omega
    · simp only [accFrom_digit hL hfit, valueFrom, hL]
      exact ih hfit

/-- Settles O54: `dec_u` is the accumulation from 0 (`accFrom_eq_ok_iff`), but for the empty string. -/
theorem unsignedDecodeAcceptsExactly : Obligations.UnsignedDecodeAcceptsExactly := by
  intro r L str a hr
  cases str with
  | nil => simp [decU]
  | cons c w =>
    rw [decU, if_neg (List.cons_ne_nil c w), accFrom_eq_ok_iff (by omega) (c :: w) (by decide)]
    simp

theorem charStatuses_unknown (hL : L c = none) :
    charStatuses r L a (c :: w) = List.replicate (w.length + 1) .invalidCharacter := by
  simp [charStatuses, hL]

theorem charStatuses_overflow {d : Nat} (hL : L c = some d) (hover : 2 ^ 64 ≤ a * r + d) :
    charStatuses r L a (c :: w) = List.replicate (w.length + 1) .overflow := by
  simp only [charStatuses, hL, if_pos hover]

theorem charStatuses_digit {d : Nat} (hL : L c = some d) (hfit : a * r + d < 2 ^ 64) :
    charStatuses r L a (c :: w) = .ok :: charStatuses r L (a * r + d) w := by
  simp only [charStatuses, hL, if_neg (Nat.not_le_of_lt hfit)]

/-! ## The sessions -/

/-- What DACC and DERR hold of the accumulation: its number, or its error latched (42_decode.md R154). -/
def HoldsAcc (s : State) : Except Status Nat → Prop
  | .ok a => s.derr = 0 ∧ s.dacc.toNat = a
  | .error e => e ≠ .ok ∧ s.derr = statusCode e

/-- An open session, signed as `g` says: whether it took the sign, whether it took another character, and the
accumulation `x` of the characters so far. -/
structure Decoding (r : Nat) (A : Nat → Byte) (g neg any : Bool) (x : Except Status Nat) (s : State) : Prop where
  codec : HoldsCodec s r A
  dact : s.dact = true
  dsgn : s.dsgn = g
  dneg : s.dneg = neg
  dany : s.dany = any
  acc : HoldsAcc s x

variable {g neg any : Bool} {e : Status} {x : Except Status Nat}

theorem decoding_openSession (h : HoldsCodec s r A) (g : Bool) :
    Decoding r A g false false (.ok 0) (respondOk 0 (openSession g s)) :=
  ⟨h.congr rfl, rfl, rfl, rfl, rfl, rfl, rfl⟩

/-- RLUT has valid bit 0 for a character without a digit (10_state.md R44). -/
theorem HoldsCodec.rlutV_of_no_digit (h : HoldsCodec s r A) (hL : lookupIn r A c = none) :
    s.rlutV.read c.toNat = some 0 :=
  h.absent c fun i hi => by simpa using List.find?_eq_none.mp hL i (List.mem_range.mpr hi)

/-- A character without a digit latches InvalidCharacter (42_decode.md R146). -/
theorem Decoding.dchar_unknown (h : Decoding r A g neg any (.ok a) s) (hsg : takesSign s.dsgn s.dfirst c = false)
    (hL : lookupIn r A c = none) :
    ∃ t, Answers (.dchar c) s t ∧ Decoding r A g neg true (.error .invalidCharacter) t ∧
      t.rspOut = responded s .invalidCharacter 0 :=
  ⟨_, .dcharUnknown h.dact h.acc.1 hsg (h.codec.rlutV_of_no_digit hL),
    ⟨h.codec.congr rfl, h.dact, h.dsgn, h.dneg, rfl, by decide, rfl⟩, rfl⟩

/-- What DCHAR reads of a digit, and the sum it makes (42_decode.md R146). -/
theorem Decoding.lookup {d : Nat} (h : Decoding r A g neg any (.ok a) s) (hL : lookupIn r A c = some d) :
    s.rlutV.read c.toNat = some 1 ∧
    ∃ b : Byte, s.rlutD.read c.toNat = some b ∧ s.dacc.toNat * s.radix.toNat + b.toNat = a * r + d := by
  obtain ⟨hv, hdig, hnum⟩ := h.codec.rlut_of_lookup hL
  obtain ⟨-, hacc⟩ := h.acc
  exact ⟨hv, _, hdig, by rw [hacc, h.codec.radix, hnum]⟩

/-- A digit whose sum does not fit latches Overflow (42_decode.md R146, R150). -/
theorem Decoding.dchar_overflow {d : Nat} (h : Decoding r A g neg any (.ok a) s)
    (hsg : takesSign s.dsgn s.dfirst c = false) (hL : lookupIn r A c = some d) (hover : 2 ^ 64 ≤ a * r + d) :
    ∃ t, Answers (.dchar c) s t ∧ Decoding r A g neg true (.error .overflow) t ∧
      t.rspOut = responded s .overflow 0 := by
  obtain ⟨hv, b, hdig, hsum⟩ := h.lookup hL
  exact ⟨_, .dcharOverflow h.dact h.acc.1 hsg hv hdig (hsum ▸ hover),
    ⟨h.codec.congr rfl, h.dact, h.dsgn, h.dneg, rfl, by decide, rfl⟩, rfl⟩

/-- A digit whose sum fits is added (42_decode.md R146, R150). -/
theorem Decoding.dchar_digit {d : Nat} (h : Decoding r A g neg any (.ok a) s)
    (hsg : takesSign s.dsgn s.dfirst c = false) (hL : lookupIn r A c = some d) (hfit : a * r + d < 2 ^ 64) :
    ∃ t, Answers (.dchar c) s t ∧ Decoding r A g neg true (.ok (a * r + d)) t ∧ t.dfirst = false ∧
      t.rspOut = responded s .ok 0 := by
  obtain ⟨hv, b, hdig, hsum⟩ := h.lookup hL
  refine ⟨_, .dcharDigit h.dact h.acc.1 hsg hv hdig (hsum ▸ hfit),
    ⟨h.codec.congr rfl, h.dact, h.dsgn, h.dneg, rfl, h.acc.1, ?_⟩, rfl, rfl⟩
  rw [respondOk_dacc, hsum, BitVec.toNat_ofNat, Nat.mod_eq_of_lt hfit]

/-- The character that latches an error and those after it all answer that error (42_decode.md R154). -/
theorem Decoding.run_of_latches (ha : Answers (.dchar c) s t) (h : Decoding r A g neg any (.error e) t)
    (hrsp : t.rspOut = responded s e 0) (w : List Byte) :
    ∃ u, runInstrs ((c :: w).map .dchar) s = .next u ∧ Decoding r A g neg any (.error e) u ∧
      u.rspOut = s.rspOut ++ (List.replicate (w.length + 1) e).map fun e => rspWord (statusCode e) 0 := by
  obtain ⟨hne, he⟩ := h.acc
  have hlatched : t.derr ≠ 0 := he ▸ mt (statusCode_inj e .ok).mp hne
  refine ⟨_, (runInstrs_cons ha).trans (runInstrs_dchar_latched w t h.dact hlatched),
    ⟨h.codec.congr rfl, h.dact, h.dsgn, h.dneg, h.dany, hne, he⟩, ?_⟩
  simp [hrsp, he, responded, List.replicate_succ]

/-- The characters of a session from the accumulator `a` on, the first of them not taken as the sign: the machine
follows `acc` (42_decode.md R156). -/
theorem Decoding.run (str : List Byte) : ∀ {s : State} {a : Nat} {any : Bool}, Decoding r A g neg any (.ok a) s →
    (∀ c ∈ str.head?, takesSign s.dsgn s.dfirst c = false) →
      ∃ t, runInstrs (str.map .dchar) s = .next t ∧
        Decoding r A g neg (any || !str.isEmpty) (accFrom r (lookupIn r A) a str) t ∧
        t.rspOut = s.rspOut ++ (charStatuses r (lookupIn r A) a str).map fun e => rspWord (statusCode e) 0 := by
  induction str with
  | nil =>
    intro s a any h _
    exact ⟨s, rfl, by simpa [accFrom] using h, by simp [charStatuses]⟩
  | cons c w ih =>
    intro s a any h hsg
    have hsg : takesSign s.dsgn s.dfirst c = false := hsg c rfl
    rw [List.isEmpty_cons, Bool.not_false, Bool.or_true]
    obtain hL | ⟨d, hL, hover⟩ | ⟨d, hL, hfit⟩ := nextDigit_cases r (lookupIn r A) a c
    · obtain ⟨u, hu, hdec, hrsp⟩ := h.dchar_unknown hsg hL
      rw [accFrom_unknown hL, charStatuses_unknown hL]
      exact Decoding.run_of_latches hu hdec hrsp w
    · obtain ⟨u, hu, hdec, hrsp⟩ := h.dchar_overflow hsg hL hover
      rw [accFrom_overflow hL hover, charStatuses_overflow hL hover]
      exact Decoding.run_of_latches hu hdec hrsp w
    · obtain ⟨u, hu, hdec, hfirst, hrsp⟩ := h.dchar_digit hsg hL hfit
      obtain ⟨t, ht, hdec, hrsp'⟩ := ih hdec fun c _ => by simp [takesSign, hfirst]
      rw [accFrom_digit hL hfit, charStatuses_digit hL hfit]
      exact ⟨t, (runInstrs_cons hu).trans ht, by simpa using hdec, by simp [hrsp', hrsp, responded]⟩

/-! ## The results of the sessions -/

/-- The result of a session: the unsigned value as it is, the signed one by `finish` (42_decode.md R156). -/
def finishSession (g neg : Bool) (x : Except Status Nat) : Except Status Value :=
  if g then finishSigned neg x else x.map (BitVec.ofNat 64)

theorem finishSession_error (g neg : Bool) (e : Status) : finishSession g neg (.error e) = .error e := by
  cases g <;> rfl

/-- DEND answers the latched error, or EmptyInput, or the result of the accumulation (42_decode.md R148). -/
theorem Decoding.sessionResponse_eq (h : Decoding r A g neg any x s) :
    rspWord (sessionResponse s.sessionPart).1 (sessionResponse s.sessionPart).2 =
      resultWord (x.bind fun a => if any then finishSession g neg (.ok a) else .error .emptyInput) := by
  obtain ⟨-, -, hg, hneg, hany, hacc⟩ := h
  cases x with
  | error e =>
    obtain ⟨hne, he⟩ := hacc
    have hlatched : s.derr ≠ 0 := he ▸ mt (statusCode_inj e .ok).mp hne
    rw [sessionResponse_of_latched hlatched, he]
    rfl
  | ok a =>
    obtain ⟨he, rfl⟩ := hacc
    subst hg hneg
    cases any with
    | false => rw [sessionResponse_of_empty he hany]; rfl
    | true =>
      cases hg : s.dsgn with
      | false =>
        rw [sessionResponse_of_unsigned he hany hg]
        simp [Except.bind, finishSession, Except.map, resultWord]
      | true =>
        rw [sessionResponse_of_signed he hany hg]
        simp only [Except.bind, finishSession, finishSigned, if_true, BitVec.ofNat_toNat, BitVec.setWidth_eq]
        split_ifs <;> rfl

/-- `dec_u` of a string is the accumulation from 0, but for the empty string (42_decode.md R156). -/
theorem bind_accFrom_eq_finishSession (g neg : Bool) (str : List Byte) :
    ((accFrom r L 0 str).bind fun a => if !str.isEmpty then finishSession g neg (.ok a) else .error .emptyInput) =
      finishSession g neg (decU r L str) := by
  cases str with
  | nil => rw [decU, if_pos rfl, finishSession_error]; rfl
  | cons c w =>
    rw [decU, if_neg (List.cons_ne_nil c w)]
    cases accFrom r L 0 (c :: w) with
    | error e => exact (finishSession_error g neg e).symm
    | ok a => rfl

/-- A session from before its first digit to its end: it computes `dec_u` of its digits and finishes that as its kind
and its sign say (42_decode.md R156). -/
theorem Decoding.run_dend (h : Decoding r A g neg false (.ok 0) s) (str : List Byte)
    (hsg : ∀ c ∈ str.head?, takesSign s.dsgn s.dfirst c = false) :
    ∃ t, runInstrs (str.map .dchar ++ [.dend]) s = .next t ∧ HoldsCodec t r A ∧ t.dact = false ∧
      t.rspOut = s.rspOut ++ (charStatuses r (lookupIn r A) 0 str).map (fun e => rspWord (statusCode e) 0) ++
        [resultWord (finishSession g neg (decU r (lookupIn r A) str))] := by
  obtain ⟨u, hu, hdec, hrsp⟩ := h.run str hsg
  rw [runInstrs_append hu, runInstrs_singleton, exec_dend_of_open hdec.dact Prod.mk.eta.symm,
    hdec.sessionResponse_eq, hrsp, Bool.false_or, bind_accFrom_eq_finishSession]
  exact ⟨_, rfl, hdec.codec.congr rfl, rfl, rfl⟩

/-- Settles O48: in an unsigned session no character is the sign (`Decoding.run_dend`). -/
theorem decodeUnsignedSessionComputesDecU : Obligations.DecodeUnsignedSessionComputesDecU := by
  intro str s r A hA
  obtain ⟨t, ht, hcodec, hda, hrsp⟩ := (decoding_openSession hA false).run_dend str fun _ _ => rfl
  exact ⟨t, (runInstrs_cons (.dbegu hA.valid)).trans ht, hcodec, hda, by simpa [finishSession] using hrsp⟩

/-- The sign in front of a signed session is taken, and the digits come after it (42_decode.md R146). -/
theorem Decoding.dchar_sign (h : Decoding r A true neg any (.ok a) s) (hfirst : s.dfirst = true) :
    ∃ t, Answers (.dchar signChar) s t ∧ Decoding r A true true any (.ok a) t ∧ t.dfirst = false ∧
      t.rspOut = responded s .ok 0 :=
  ⟨_, .dcharSign h.dact h.acc.1 (by rw [h.dsgn, hfirst]; rfl),
    ⟨h.codec.congr rfl, h.dact, h.dsgn, rfl, h.dany, h.acc⟩, rfl, rfl⟩

/-- Settles O49: a leading sign is taken once and the rest is decoded under it; any other string is decoded without
(`Decoding.run_dend` for both). -/
theorem decodeSignedSessionComputesDecS : Obligations.DecodeSignedSessionComputesDecS := by
  intro str s r A hA
  have hopen := decoding_openSession hA true
  rw [decodes, runInstrs_cons (.dbegs hA.valid)]
  by_cases hsign : str.head? = some signChar
  · obtain ⟨w, rfl⟩ := List.head?_eq_some_iff.mp hsign
    obtain ⟨u, hu, hdec, hfirst, hrsp⟩ := hopen.dchar_sign rfl
    obtain ⟨t, ht, hcodec, hda, hrsp'⟩ := hdec.run_dend w fun c _ => by simp [takesSign, hfirst]
    exact ⟨t, (runInstrs_cons hu).trans ht, hcodec, hda, by
      simpa [hrsp, responded, signedStatuses, decS, finishSession] using hrsp'⟩
  · have hdigit : ∀ c ∈ str.head?, takesSign true true c = false := by
      intro c hc
      have hne : c ≠ signChar := by rintro rfl; exact hsign hc
      simpa [takesSign] using hne
    obtain ⟨t, ht, hcodec, hda, hrsp⟩ := hopen.run_dend str hdigit
    refine ⟨t, ht, hcodec, hda, ?_⟩
    cases str with
    | nil => simpa [signedStatuses, charStatuses, decS, decU, finishSession, finishSigned] using hrsp
    | cons c w =>
      have hne : c ≠ signChar := by simpa using hsign
      simpa [signedStatuses, decS, finishSession, hne] using hrsp

end Sys2Proof.Machine
end

section
/-! SUPPORT. The public operations (43_operations.md R171 to R181): a construction character by character, the delivery
of an encoded string, and the round trips. -/

namespace Sys2Proof.Machine

variable {s t : State} {r v : Nat} {A : Nat → Byte} {i : Instr} {n : Value} {c : Byte} {a str : List Byte}

/-! ## The construction -/

/-- The tables of a construction that was offered the characters `a`: the duplicate flag is the repeat in `a`, and
without one ALPHA spells `a` (40_alphabet.md R104). -/
structure TablesSpell (s : State) (a : List Byte) : Prop where
  build : HoldsBuild s
  adup : s.adup = false ↔ a.Nodup
  alpha : s.adup = false → ∀ j, j < a.length → s.alpha.read j = a[j]?

/-- A construction that was offered the characters `a`. Past 256 of them only the count matters
(40_alphabet.md R104, R106). -/
structure Offered (s : State) (a : List Byte) : Prop where
  build : s.build = true
  valid : s.valid = false
  radix : s.radix = 0
  dact : s.dact = false
  count : s.acnt.toNat = min a.length 257
  tables : a.length ≤ 256 → TablesSpell s a

theorem offered_abegin (s : State) : Offered (respondOk 0 { clearCodec s with build := true }) [] where
  build := rfl
  valid := rfl
  radix := rfl
  dact := rfl
  count := rfl
  tables _ :=
    { build :=
        { cleared := fun b hb => by cases (clearCodec_cleared b s).symm.trans hb
          present := fun _ j hj => by simp [considered] at hj
          absent := fun _ b _ => clearCodec_cleared b s }
      adup := by simp
      alpha := by simp }

/-- While no character was repeated, the valid bits are those of the characters offered (40_alphabet.md R104). -/
theorem TablesSpell.mem_iff (h : TablesSpell s a) (hn : considered s = a.length) (hd : s.adup = false) (c : Byte) :
    c ∈ a ↔ s.rlutV.read c.toNat = some 1 := by
  have halpha := h.alpha hd
  constructor
  · intro hc
    obtain ⟨j, hj, rfl⟩ := List.mem_iff_getElem.mp hc
    obtain ⟨b, hb, hbv, -⟩ := h.build.present hd j (hn ▸ hj)
    rw [halpha j hj, List.getElem?_eq_getElem hj] at hb
    rwa [Option.some.inj hb]
  · intro hv
    by_contra hc
    have habsent : s.rlutV.read c.toNat = some 0 := h.build.absent hd c fun j hj hread =>
      hc (List.mem_of_getElem? ((halpha j (hn ▸ hj)).symm.trans hread))
    cases hv.symm.trans habsent

/-- One character more leaves no repeat if there was none and its valid bit is not set (40_alphabet.md R104). -/
theorem TablesSpell.nodup_concat_iff (h : TablesSpell s a) (hn : considered s = a.length) (c : Byte) :
    (a ++ [c]).Nodup ↔ s.adup = false ∧ s.rlutV.read c.toNat ≠ some 1 := by
  rw [← List.concat_eq_append, List.nodup_concat, and_comm, ← h.adup]
  exact and_congr_right fun hd => not_congr (h.mem_iff hn hd c)

/-- A repeated character sets the duplicate flag and stores nothing (40_alphabet.md R104). -/
theorem TablesSpell.apushRepeat (h : TablesSpell s a) (hn : considered s = a.length)
    (hv : s.rlutV.read c.toNat = some 1) (k : BitVec 9) :
    TablesSpell (respondOk 0 { s with adup := true, acnt := k }) (a ++ [c]) where
  build :=
    { cleared := h.build.cleared
      present := by intro hd; cases hd
      absent := by intro hd; cases hd }
  adup := by simp [h.nodup_concat_iff hn, hv]
  alpha := by intro hd; cases hd

/-- A new character becomes the entry ACNT of ALPHA (40_alphabet.md R104). -/
theorem TablesSpell.apushNew (h : TablesSpell s a) (hn : s.acnt.toNat = a.length) (hle : a.length ≤ 255)
    (hv : s.rlutV.read c.toNat = some 0) :
    TablesSpell (respondOk 0 { setDigit c s.acnt.toNat s with acnt := countNext s.acnt }) (a ++ [c]) where
  build := h.build.new (by omega) hv
  adup := by
    have hc : considered s = a.length := by rw [considered]; omega
    simp [h.nodup_concat_iff hc, hv]
  alpha := by
    intro hd j hj
    simp only [respondOk_alpha, setDigit_alpha, Memory.read_write, hn]
    rw [List.length_append, List.length_singleton] at hj
    by_cases hja : j = a.length
    · simp [hja]
    · rw [if_neg hja, List.getElem?_append_left (by omega)]
      exact h.alpha hd j (by omega)

/-- APUSH offers one character more and answers (OK, 0) (40_alphabet.md R104). -/
theorem Offered.apush (h : Offered s a) (c : Byte) :
    ∃ t, Answers (.apush c) s t ∧ Offered t (a ++ [c]) ∧ t.rspOut = responded s .ok 0 := by
  have hcount := h.count
  have hlen : (a ++ [c]).length = a.length + 1 := by simp
  have hnext : (countNext s.acnt).toNat = min (a ++ [c]).length 257 := by rw [countNext_toNat]; omega
  by_cases hle : a.length ≤ 255
  · have hn : s.acnt.toNat = a.length := by omega
    have htab := h.tables (by omega)
    obtain ⟨b, hb⟩ := Option.ne_none_iff_exists'.mp (htab.build.cleared c)
    obtain rfl | rfl := BitVec.eq_zero_or_eq_one b
    · exact ⟨_, .apushNew h.build (by omega) hb,
        ⟨h.build, h.valid, h.radix, h.dact, hnext, fun _ => htab.apushNew hn hle hb⟩, rfl⟩
    · have hc : considered s = a.length := by rw [considered]; omega
      exact ⟨_, .apushRepeat h.build (by omega) hb,
        ⟨h.build, h.valid, h.radix, h.dact, hnext, fun _ => htab.apushRepeat hc hb _⟩, rfl⟩
  · exact ⟨_, .apushBeyond h.build (by omega),
      ⟨h.build, h.valid, h.radix, h.dact, hnext, fun hfew => absurd hfew (by omega)⟩, rfl⟩

theorem Offered.run (cs : List Byte) : ∀ {s : State} {a : List Byte}, Offered s a →
    ∃ t, runInstrs (cs.map .apush) s = .next t ∧ Offered t (a ++ cs) ∧
      t.rspOut = s.rspOut ++ List.replicate cs.length (rspWord (statusCode .ok) 0) := by
  induction cs with
  | nil =>
    intro s a h
    exact ⟨s, rfl, by simpa using h, by simp⟩
  | cons c cs ih =>
    intro s a h
    obtain ⟨u, hu, hoff, hrsp⟩ := h.apush c
    obtain ⟨t, ht, hoff, hrsp'⟩ := ih hoff
    exact ⟨t, (runInstrs_cons hu).trans ht, by simpa using hoff,
      by simp [hrsp', hrsp, responded, List.replicate_succ]⟩

/-- Only the characters below the radix count in an alphabet. -/
theorem HoldsCodec.of_agrees {B : Nat → Byte} (h : HoldsCodec s r A) (hB : ∀ j, j < r → A j = B j) :
    HoldsCodec s r B where
  valid := h.valid
  radix := h.radix
  radixMin := h.radixMin
  radixMax := h.radixMax
  alpha := fun j hj => hB j hj ▸ h.alpha j hj
  distinct := fun j k hj hk hjk => h.distinct j k hj hk (by rw [hB j hj, hB k hk, hjk])
  present := fun j hj => hB j hj ▸ h.present j hj
  absent := fun b hb => h.absent b fun j hj => hB j hj ▸ hb j hj

/-- The tables of a legal alphabet are its codec (40_alphabet.md R106). -/
theorem Offered.holdsCodec (h : Offered s a) (hmin : 2 ≤ a.length) (hmax : a.length ≤ 256) (hd : s.adup = false) :
    HoldsCodec (respondOk 0 { s with build := false, radix := s.acnt, valid := true }) a.length
      fun j => a.getD j 0 := by
  have hcount := h.count
  have hn : s.acnt.toNat = a.length := by omega
  have htab := h.tables hmax
  rw [← hn]
  refine (htab.build.holdsCodec (by omega) (by omega) hd).of_agrees fun j hj => ?_
  rw [alphabetOf, htab.alpha hd j (by omega), List.getD_eq_getElem?_getD]

/-- A construction that failed leaves no codec and the phase EMPTY (40_alphabet.md R106, 30_encoding.md R86). -/
theorem Offered.fails (h : Offered s a) (e : Status) :
    phaseOf (raise e { s with build := false }) = some .empty ∧ (raise e { s with build := false }).radix = 0 :=
  ⟨phaseOf_eq_some_iff.mpr ⟨h.valid, rfl, h.dact⟩, h.radix⟩

/-- ACOMMIT answers the verdict on the characters offered (40_alphabet.md R106). -/
theorem Offered.acommit (h : Offered s a) :
    ∃ t, Answers .acommit s t ∧ t.rspOut = responded s (alphabetVerdict a) 0 ∧
      (alphabetVerdict a = .ok → HoldsCodec t a.length fun j => a.getD j 0) ∧
      (alphabetVerdict a ≠ .ok → phaseOf t = some .empty ∧ t.radix = 0) := by
  have hcount := h.count
  unfold alphabetVerdict
  split_ifs with hsize hnd
  · exact ⟨_, .acommitSize h.build (by omega), rfl, by simp, fun _ => h.fails _⟩
  · have hd := (h.tables (by omega)).adup.mpr hnd
    exact ⟨_, .acommitOk h.build (by omega) (by omega) hd, rfl,
      fun _ => h.holdsCodec (by omega) (by omega) hd, by simp⟩
  · have hd : s.adup = true := by simpa using mt (h.tables (by omega)).adup.mp hnd
    exact ⟨_, .acommitRepeat h.build (by omega) (by omega) hd, rfl, by simp, fun _ => h.fails _⟩

/-- Settles O45: the construction goes through the characters (`Offered.run`), and ACOMMIT judges what it was offered
(`Offered.acommit`). -/
theorem newcodecBuildsTheAlphabet : Obligations.NewcodecBuildsTheAlphabet := by
  intro a s
  obtain ⟨u, hu, hoff, hrsp⟩ := (offered_abegin s).run a
  obtain ⟨t, ht, hrsp', hok, hfail⟩ := Offered.acommit hoff
  refine ⟨t, ?_, ?_, hok, hfail⟩
  · rw [newcodec, runInstrs_cons .abegin, runInstrs_append hu, runInstrs_singleton, ht.exec]
  · rw [hrsp', responded, hrsp]
    simp [List.replicate_succ]

/-! ## The delivery of a string -/

/-- As many OPOPs as characters are held deliver them in order and leave none (41_encode.md R128). -/
theorem runInstrs_opop (str : List Byte) : ∀ s : State, s.opos.toNat + str.length = 65 →
    (∀ j, j < str.length → s.obuf.read (s.opos.toNat + j) = str[j]?) →
    runInstrs (List.replicate str.length .opop) s = .next { s with
      opos := 65
      rspOut := s.rspOut ++ str.map fun c => rspWord (statusCode .ok) (c.setWidth 64) } := by
  induction str with
  | nil =>
    intro s hpos _
    have hempty : s.opos = 65 := BitVec.eq_of_toNat_eq hpos
    simp [runInstrs, ← hempty]
  | cons c w ih =>
    intro s hpos hchars
    rw [List.length_cons] at hpos
    have hlt : s.opos.toNat < 65 := by omega
    have hnext := opos_next hlt
    have hpop := Answers.opop hlt (hchars 0 (Nat.succ_pos _))
    rw [List.length_cons, List.replicate_succ, runInstrs_cons hpop, ih]
    · simp
    · simp only [respondOk_opos, hnext]
      omega
    · intro j hj
      simp only [respondOk_opos, respondOk_obuf, hnext]
      simpa [Nat.add_assoc, Nat.add_comm 1 j] using hchars (j + 1) (Nat.succ_lt_succ hj)

/-- `t` is `s` after the string `str` was encoded and delivered, its length first (43_operations.md R173, R174). -/
structure Delivered (str : List Byte) (s t : State) : Prop where
  rest : t = { s with obuf := t.obuf, opos := 65, rspOut := t.rspOut }
  responses : t.rspOut = s.rspOut ++ rspWord (statusCode .ok) (BitVec.ofNat 64 str.length) ::
    str.map fun c => rspWord (statusCode .ok) (c.setWidth 64)

theorem Delivered.holdsCodec (h : Delivered str s t) (hA : HoldsCodec s r A) : HoldsCodec t r A :=
  hA.congr (by rw [h.rest]; rfl)

/-- A command that stores a string, and the OPOPs after it (43_operations.md R173, R174). -/
theorem OutputStored.run_opops (h : OutputStored str s t) (hi : exec i s = .next t) :
    ∃ u, runInstrs (i :: List.replicate str.length .opop) s = .next u ∧ Delivered str s u := by
  rw [runInstrs_cons (answers_of_exec hi), runInstrs_opop str t h.position h.chars]
  refine ⟨_, rfl, ?_, ?_⟩
  · rw [h.rest]
  · rw [h.rest]
    simp [responded]

theorem HoldsCodec.run_encodeu (hA : HoldsCodec s r A) (n : Value) :
    ∃ t, runInstrs (encodeu n (encU r A n).length) s = .next t ∧ Delivered (encU r A n) s t := by
  obtain ⟨-, -, hstores⟩ := encuStoresTheUnsignedDigits n s
  obtain rfl := hA.radix
  obtain ⟨u, hu, hstored⟩ := hstores A hA.valid hA.radixMin hA.radixMax hA.alpha
  exact hstored.run_opops hu

theorem HoldsCodec.run_encodes (hA : HoldsCodec s r A) (n : Value) :
    ∃ t, runInstrs (encodes n (encS r A n).length) s = .next t ∧ Delivered (encS r A n) s t := by
  obtain ⟨-, -, hstores⟩ := encsStoresTheSignAndTheMagnitude n s
  obtain rfl := hA.radix
  obtain ⟨u, hu, hstored⟩ := hstores A hA.valid hA.radixMin hA.radixMax hA.alpha
  exact hstored.run_opops hu

/-- Settles O46: ENCU stores the string (O19) and the OPOPs deliver it (`OutputStored.run_opops`). -/
theorem encodeUnsignedDeliversTheString : Obligations.EncodeUnsignedDeliversTheString := by
  intro n s r A hA
  obtain ⟨t, ht, hdel⟩ := hA.run_encodeu n
  exact ⟨t, ht, hdel.rest, hdel.responses⟩

/-- Settles O47: ENCS stores the string (O20) and the OPOPs deliver it (`OutputStored.run_opops`). -/
theorem encodeSignedDeliversTheString : Obligations.EncodeSignedDeliversTheString := by
  intro n s r A hA
  obtain ⟨t, ht, hdel⟩ := hA.run_encodes n
  exact ⟨t, ht, hdel.rest, hdel.responses⟩

/-! ## The round trips -/

/-- `dec_u` of the digits of a value is the value (42_decode.md R158). -/
theorem decU_digits (hr : 2 ≤ r) (hA : ∀ i j, i < r → j < r → A i = A j → i = j) (hv : v < 2 ^ 64) :
    decU r (lookupIn r A) (digits r A v) = .ok v :=
  (unsignedDecodeAcceptsExactly r (lookupIn r A) (digits r A v) v hr).mpr
    ⟨List.length_pos_iff.mp (digits_length_pos r A v), valueFrom_digits hr hA v hv, hv⟩

/-- Every character of an encoded value is one of the alphabet (41_encode.md R130). -/
theorem exists_digit_of_mem_digits (hr : 2 ≤ r) (A : Nat → Byte) :
    ∀ v, v < 2 ^ 64 → ∀ c ∈ digits r A v, ∃ d, d < r ∧ A d = c := by
  refine digits_induction (P := fun _ str => ∀ c ∈ str, ∃ d, d < r ∧ A d = c) hr
    (fun v hlt c hc => ?_) (fun v _ _ ih c hc => ?_)
  · exact ⟨v, hlt, (List.mem_singleton.mp hc).symm⟩
  · obtain hc | hc := List.mem_append.mp hc
    · exact ih c hc
    · exact ⟨v % r, Nat.mod_lt v (by omega), (List.mem_singleton.mp hc).symm⟩

/-- A string that does not begin with the sign is decoded without one (42_decode.md R156). -/
theorem decS_of_head_ne_sign {L : Byte → Option Nat} (h : str.head? ≠ some signChar) :
    decS r L str = finishSigned false (decU r L str) := by
  cases str with
  | nil => rfl
  | cons c w => exact if_neg (by simpa using h)

/-- A magnitude up to `2^63` is finished under the sign as its negative (42_decode.md R152, R156). -/
theorem finishSigned_neg64 {u : Value} (hu : u.toNat ≤ 2 ^ 63) : finishSigned true (.ok u.toNat) = .ok (neg64 u) := by
  rw [finishSigned, if_neg (by simp; omega), if_pos rfl, BitVec.ofNat_toNat, BitVec.setWidth_eq]

/-- A value below `2^63` is finished without the sign as it is (42_decode.md R152, R156). -/
theorem finishSigned_of_lt {u : Value} (hu : u.toNat < 2 ^ 63) : finishSigned false (.ok u.toNat) = .ok u := by
  rw [finishSigned, if_neg (by omega), if_neg (by decide), BitVec.ofNat_toNat, BitVec.setWidth_eq]

/-- `dec_s` of `enc_s(n)` is `n` when the sign is no digit: it is taken where it was put and nowhere else
(43_operations.md R180). -/
theorem decS_encS (hr : 2 ≤ r) (hA : ∀ i j, i < r → j < r → A i = A j → i = j) (hsign : ∀ i, i < r → A i ≠ signChar)
    (n : Value) : decS r (lookupIn r A) (encS r A n) = .ok n := by
  by_cases hneg : isNegative n = true
  · rw [encS, if_pos hneg, decS, if_pos rfl, decU_digits hr hA (neg64 n).isLt,
      finishSigned_neg64 (neg64_toNat_le hneg), neg64_eq_neg, neg64_eq_neg, BitVec.neg_neg]
  · have hlt : n.toNat < 2 ^ 63 := Nat.lt_of_not_le (mt (isNegative_iff n).mpr hneg)
    have hhead : (digits r A n.toNat).head? ≠ some signChar := by
      intro hhead
      obtain ⟨d, hd, hchar⟩ := exists_digit_of_mem_digits hr A n.toNat n.isLt _ (List.mem_of_head? hhead)
      exact hsign d hd hchar
    rw [encS, if_neg hneg, decS_of_head_ne_sign hhead, decU_digits hr hA n.isLt, finishSigned_of_lt hlt]

theorem lastRsp_of_append {rs : List RspWord} {w : RspWord} (h : t.rspOut = rs ++ [w]) : lastRsp t = some w := by
  rw [lastRsp, h, List.getLast?_concat]

/-- Settles O50: the string delivered is decoded by `dec_u` (O48), which inverts `digits` (`decU_digits`). -/
theorem unsignedRoundTrip : Obligations.UnsignedRoundTrip := by
  intro n s r A hA
  obtain ⟨u, hu, hdel⟩ := hA.run_encodeu n
  obtain ⟨t, ht, -, -, hrsp⟩ := decodeUnsignedSessionComputesDecU (encU r A n) u r A (hdel.holdsCodec hA)
  have hdec : (decU r (lookupIn r A) (encU r A n)).map (BitVec.ofNat 64) = .ok n := by
    rw [encU, decU_digits hA.radixMin hA.distinct n.isLt, Except.map, BitVec.ofNat_toNat, BitVec.setWidth_eq]
  rw [hdec] at hrsp
  exact ⟨t, (runInstrs_append hu).trans ht, lastRsp_of_append hrsp⟩

/-- ENCODES and then DECODES of its string, when the sign is no digit (43_operations.md R180). -/
theorem HoldsCodec.signedRoundTrip (hA : HoldsCodec s r A) (hsign : ∀ i, i < r → A i ≠ signChar) (n : Value) :
    ∃ t, runInstrs (encodes n (encS r A n).length ++ decodes (encS r A n)) s = .next t ∧
      lastRsp t = some (rspWord (statusCode .ok) n) := by
  obtain ⟨u, hu, hdel⟩ := hA.run_encodes n
  obtain ⟨t, ht, -, -, hrsp⟩ := decodeSignedSessionComputesDecS (encS r A n) u r A (hdel.holdsCodec hA)
  rw [decS_encS hA.radixMin hA.distinct hsign] at hrsp
  exact ⟨t, (runInstrs_append hu).trans ht, lastRsp_of_append hrsp⟩

/-- The sign is none of the 36 characters of LOWER_REF (10_state.md R37). -/
theorem lowerChar_ne_signChar : ∀ i, i < 36 → lowerChar i ≠ signChar := by decide

/-- Settles O51: LDLOWER leaves a codec without the sign among its digits, and any such codec makes the round trip
(`HoldsCodec.signedRoundTrip`). -/
theorem signedRoundTrip : Obligations.SignedRoundTrip := by
  refine ⟨fun n r s hmin hmax => ?_, fun n s r A hA hsign => hA.signedRoundTrip hsign n⟩
  have hp := IsPreset.lower hmin hmax
  rw [runInstrs_cons (.preset hp)]
  exact (hp.holdsCodec s).signedRoundTrip (fun i hi => lowerChar_ne_signChar i (by omega)) n

end Sys2Proof.Machine
end

section
/-! SUPPORT. The statuses (60_exceptions.md R200 to R216). A command is turned away, which answers a protocol error and
writes nothing (R214), or it runs and reports one of its other statuses. -/

namespace Sys2Proof.Machine

variable {i : Instr} {s t : State} {e : Status} {d : Value}

/-! ## Illegal words -/

/-- Settles O5: the step on an illegal word (`StepAnswers.illegal`) only takes the word and responds. -/
theorem stepAnswersIllegalWordsAndChangesNothing : Obligations.StepAnswersIllegalWordsAndChangesNothing :=
  fun _ _ _ _ hc hw => (StepAnswers.illegal hc hw).step

/-! ## The protocol errors -/

/-- The statuses that say that the host broke the protocol (60_exceptions.md R214, first row). -/
def protocolStatuses : List Status := [.noCodec, .badSequence, .illegalCommand, .outputEmpty]

/-- They are the statuses 6 to 9 (70_reset_and_hazards.md R252). -/
theorem protocolError_rspWord_iff : protocolError (rspWord (statusCode e) d) = true ↔ e ∈ protocolStatuses := by
  rw [protocolError, rspStatus_rspWord, decide_eq_true_iff]
  cases e <;> decide

/-- `TurnedAway i s e`: in state `s` command `i` may not run and answers `e`, because the flag it asks for is 0 or
because OPOP finds the output empty (60_exceptions.md R206, R207, R209). -/
inductive TurnedAway : Instr → State → Status → Prop
  | notMet {i : Instr} {s : State} {n : Need} (hi : needOf i = some n) (hn : n.met s = false) :
      TurnedAway i s n.status
  | opopEmpty {s : State} (ho : s.opos = 65) : TurnedAway .opop s .outputEmpty

theorem TurnedAway.answers (h : TurnedAway i s e) : Answers i s (raise e s) := by
  cases h with
  | notMet hi hn => exact answers_of_not_met hi hn
  | opopEmpty ho => exact .opopEmpty ho

theorem needOf_status_mem_statusesOf {n : Need} (hi : needOf i = some n) : n.status ∈ statusesOf i := by
  cases i with
  | abegin | ldlower | ldupper | ldb64 | opop => cases hi
  | apush | acommit | base | encu | encs | dbegu | dbegs | dchar | dend => cases hi; simp [statusesOf, Need.status]

theorem TurnedAway.mem_statusesOf (h : TurnedAway i s e) : e ∈ statusesOf i := by
  cases h with
  | notMet hi => exact needOf_status_mem_statusesOf hi
  | opopEmpty => simp [statusesOf]

/-! ## The statuses of a command that runs -/

/-- `RunReports i s t`: the response of `i` between `s` and `t` has a status of `i` that is no protocol error. -/
def RunReports (i : Instr) (s t : State) : Prop :=
  ∃ e d, e ∈ statusesOf i ∧ e ∉ protocolStatuses ∧ t.rspOut = responded s e d

theorem ok_mem_statusesOf (i : Instr) : .ok ∈ statusesOf i := by
  cases i <;> exact List.mem_cons_self

theorem RunReports.of_ok (h : t.rspOut = responded s .ok d) : RunReports i s t :=
  ⟨.ok, d, ok_mem_statusesOf i, by decide, h⟩

/-- Under the invariants the error register holds OK or an error of a character (10_state.md R45 (i)), which DCHAR and
DEND can both report. -/
theorem Inv.exists_derr (h : Inv s) : ∃ e, s.derr = statusCode e ∧ e ∉ protocolStatuses ∧
    e ∈ statusesOf .dend ∧ ∀ c, e ∈ statusesOf (.dchar c) := by
  obtain hz | hc | ho := h.derrLegal
  · exact ⟨.ok, hz, by decide, by decide, fun c => by simp [statusesOf]⟩
  · exact ⟨.invalidCharacter, hc, by decide, by decide, fun c => by simp [statusesOf]⟩
  · exact ⟨.overflow, ho, by decide, by decide, fun c => by simp [statusesOf]⟩

/-- Under the invariants DEND in a session answers no protocol error (42_decode.md R148). -/
theorem Inv.runReports_dend (h : Inv s) : RunReports .dend s (sessionResult { s with dact := false }) := by
  obtain ⟨st, d, he, -, hst⟩ := sessionResult_eq { s with dact := false }
  have hstatus : ∃ e, st = statusCode e ∧ e ∉ protocolStatuses ∧ e ∈ statusesOf .dend := by
    obtain rfl | rfl | rfl | rfl := hst
    · obtain ⟨e, hderr, hnot, hmem, -⟩ := h.exists_derr
      exact ⟨e, hderr, hnot, hmem⟩
    · exact ⟨.ok, rfl, by decide, by decide⟩
    · exact ⟨.emptyInput, rfl, by decide, by decide⟩
    · exact ⟨.overflow, rfl, by decide, by decide⟩
  obtain ⟨e, rfl, hnot, hmem⟩ := hstatus
  rw [he]
  exact ⟨e, d, hmem, hnot, rfl⟩

/-- Under the invariants a command either is turned away and writes nothing, or runs and reports no protocol error
(60_exceptions.md R200, R214). -/
theorem Answers.turnedAway_or_runReports (h : Answers i s t) (hinv : Inv s) :
    (∃ e, TurnedAway i s e ∧ t = raise e s) ∨ RunReports i s t := by
  cases h with
  | apushNoBuild hb | acommitNoBuild hb => exact .inl ⟨_, .notMet (n := .build) rfl hb, rfl⟩
  | baseNoCodec hv | encuNoCodec hv | encsNoCodec hv | dbeguNoCodec hv | dbegsNoCodec hv =>
    exact .inl ⟨_, .notMet (n := .codec) rfl hv, rfl⟩
  | dcharNoSession hda | dendNoSession hda => exact .inl ⟨_, .notMet (n := .session) rfl hda, rfl⟩
  | opopEmpty ho => exact .inl ⟨_, .opopEmpty ho, rfl⟩
  | abegin | apushRepeat | apushNew | apushBeyond | acommitOk | base | opop | dbegu | dbegs | dcharSign | dcharDigit =>
    exact .inr (.of_ok rfl)
  | preset hp => exact .inr (.of_ok (by rw [(hp.loaded s).rest]))
  | encu _ hu => exact .inr (.of_ok (by rw [emitDigits_frame hu]; rfl))
  | encs _ hu => exact .inr (.of_ok (by rw [emitSigned_frame hu]; rfl))
  | acommitSize | ldlowerIllegal | ldupperIllegal =>
    exact .inr ⟨.invalidAlphabetSize, 0, by simp [statusesOf], by decide, rfl⟩
  | acommitRepeat => exact .inr ⟨.duplicateCharacter, 0, by simp [statusesOf], by decide, rfl⟩
  | dcharUnknown => exact .inr ⟨.invalidCharacter, 0, by simp [statusesOf], by decide, rfl⟩
  | dcharOverflow => exact .inr ⟨.overflow, 0, by simp [statusesOf], by decide, rfl⟩
  | dcharLatched =>
    obtain ⟨e, hderr, hnot, -, hmem⟩ := hinv.exists_derr
    rw [hderr]
    exact .inr ⟨e, 0, hmem _, hnot, rfl⟩
  | dend => exact .inr hinv.runReports_dend

/-! ## The statements -/

theorem responded_inj {e' : Status} {d' : Value} (h : responded s e d = responded s e' d') : e = e' := by
  have hw := List.singleton_inj.mp (List.append_cancel_left h)
  exact (statusCode_inj e e').mp ((rspWord_inj _ _ _ _).mp hw).1

/-- The commands that ask for a codec (30_encoding.md R86). -/
theorem needOf_eq_codec_iff : needOf i = some .codec ↔
    i = .base ∨ (∃ n, i = .encu n) ∨ (∃ n, i = .encs n) ∨ i = .dbegu ∨ i = .dbegs := by
  cases i <;> simp [needOf]

/-- NoCodec has one cause only: the flag VALID (60_exceptions.md R206). -/
theorem TurnedAway.needs_codec (h : TurnedAway i s .noCodec) : needOf i = some .codec ∧ s.valid = false := by
  generalize he : Status.noCodec = e at h
  cases h with
  | opopEmpty => cases he
  | @notMet _ _ n hi hn =>
    cases n with
    | codec => exact ⟨hi, hn⟩
    | build | session => cases he

/-- Settles O26: without a codec the five are turned away for lack of it (`TurnedAway.answers`); conversely NoCodec is
a protocol error, so a command that answers it was turned away, and for that reason. -/
theorem noCodecTurnsAwayTheFiveCommands : Obligations.NoCodecTurnsAwayTheFiveCommands := by
  intro i s
  refine ⟨fun hv hi => (TurnedAway.notMet (needOf_eq_codec_iff.mpr hi) hv).answers.exec, ?_⟩
  rintro t hinv h ⟨d, hd⟩
  obtain ⟨e, haway, rfl⟩ | ⟨e, d', -, hnot, hrsp⟩ := (answers_of_exec h).turnedAway_or_runReports hinv
  · obtain rfl : e = .noCodec := responded_inj hd
    obtain ⟨hi, hv⟩ := haway.needs_codec
    exact ⟨hv, needOf_eq_codec_iff.mp hi⟩
  · obtain rfl : e = .noCodec := responded_inj (hrsp.symm.trans hd)
    exact absurd (by decide) hnot

/-- The response of a command carries a status of the table (60_exceptions.md R200), and a protocol error only where
the command was turned away. -/
theorem Answers.reports {r : RspWord} (h : Answers i s t) (hinv : Inv s) (hr : t.rspOut = s.rspOut ++ [r]) :
    ∃ e d, r = rspWord (statusCode e) d ∧ e ∈ statusesOf i ∧
      (e ∈ protocolStatuses → t = { s with rspOut := t.rspOut }) := by
  have hword {e : Status} {d : Value} (h : t.rspOut = responded s e d) : r = rspWord (statusCode e) d :=
    List.singleton_inj.mp (List.append_cancel_left (hr.symm.trans h))
  obtain ⟨e, haway, rfl⟩ | ⟨e, d, hmem, hnot, hrsp⟩ := h.turnedAway_or_runReports hinv
  · exact ⟨e, 0, hword rfl, haway.mem_statusesOf, fun _ => rfl⟩
  · exact ⟨e, d, hword hrsp, hmem, fun he => absurd he hnot⟩

/-- The ten statuses are numbered 0 to 9 (60_exceptions.md R200). -/
theorem statusCode_le_nine (e : Status) : (statusCode e).toNat ≤ 9 := by
  cases e <;> decide

/-- Settles O30: the status `Answers.reports` gives, by its number. -/
theorem commandsReportOnlyTheirStatuses : Obligations.CommandsReportOnlyTheirStatuses := by
  intro i s t r hinv h hr
  obtain ⟨e, d, rfl, hmem, -⟩ := (answers_of_exec h).reports hinv hr
  rw [rspStatus_rspWord]
  exact ⟨⟨e, hmem, rfl⟩, statusCode_le_nine e⟩

/-- Settles O31: a status from 6 to 9 is a protocol error (`protocolError_rspWord_iff`), so the command was turned
away. -/
theorem protocolErrorsChangeNothing : Obligations.ProtocolErrorsChangeNothing := by
  intro i s t r hinv h hr herr
  obtain ⟨e, d, rfl, -, hkeep⟩ := (answers_of_exec h).reports hinv hr
  exact hkeep (protocolError_rspWord_iff.mp herr)

end Sys2Proof.Machine
end

section
/-! SUPPORT. Reset and hazards (70_reset_and_hazards.md): reset and the idle step, the frame of the output, lists of
commands under the invariants, and the sign as a digit. -/

namespace Sys2Proof.Machine

variable {r v : Nat} {A : Nat → Byte}

/-! ## Reset, and no host action -/

/-- Settles O2: both kinds of reset give `resetBlock` of the state with the action taken (`StepAnswers.reset`,
`StepAnswers.cut`). -/
theorem stepUnderResetLeavesTheResetState : Obligations.StepUnderResetLeavesTheResetState :=
  fun _ _ _ => ⟨fun hc => (StepAnswers.reset hc).step, fun hc => (StepAnswers.cut hc).step⟩

/-- Settles O3: on an empty command channel the step waits (`StepAnswers.waits`). -/
theorem stepWithoutHostActionWaits : Obligations.StepWithoutHostActionWaits :=
  fun _ hc => (StepAnswers.waits hc).step

/-! ## The output -/

/-- Settles O33: the frame of the output part (`Answers.outputPart_eq`). -/
theorem otherCommandsKeepTheOutput : Obligations.OtherCommandsKeepTheOutput := by
  intro i s t hi h
  obtain ⟨hbuf, hpos⟩ := outputPart_eq_iff.mp ((answers_of_exec h).outputPart_eq hi)
  exact ⟨hpos, fun a => by rw [hbuf]⟩

/-! ## Lists of commands -/

/-- Settles O42, by induction on the list: the first command completes (`Inv.answers`), keeps the invariants
(`Answers.inv`) and appends one response (`Answers.responds`). -/
theorem everyListOfCommandsCompletes : Obligations.EveryListOfCommandsCompletes := by
  intro is
  induction is with
  | nil => exact fun s h => ⟨s, rfl, h, rfl⟩
  | cons i is ih =>
    intro s h
    obtain ⟨u, hu⟩ := h.answers i
    obtain ⟨-, r, hr⟩ := hu.responds
    obtain ⟨t, ht, hinv, hlen⟩ := ih u (hu.inv h)
    refine ⟨t, (runInstrs_cons hu).trans ht, hinv, ?_⟩
    rw [hlen, hr, List.length_append, List.length_singleton, List.length_cons]
    omega

/-! ## The sign as a digit -/

/-- A value below the radix has one digit (41_encode.md R130). -/
theorem digits_of_lt (hlt : v < r) : digits r A v = [A v] := if_pos hlt

/-- A value from the radix to below its square has two digits (41_encode.md R130). -/
theorem digits_of_lt_sq (hr : 2 ≤ r) (hle : r ≤ v) (hsq : v < r * r) (hv : v < 2 ^ 64) :
    digits r A v = [A (v / r), A (v % r)] := by
  rw [digits_eq r A hr v hv, if_neg (Nat.not_lt.mpr hle), digits_of_lt (Nat.div_lt_of_lt_mul hsq)]
  rfl

/-- Even where the sign is a digit, the encoding of a negative value decodes to that value: its first character is taken
as the sign (42_decode.md R156). Only the patterns that are not negative can be misread (70_reset_and_hazards.md
R241). -/
theorem decS_encS_of_negative {n : Value} (hr : 2 ≤ r) (hA : ∀ i j, i < r → j < r → A i = A j → i = j)
    (hneg : isNegative n = true) : decS r (lookupIn r A) (encS r A n) = .ok n := by
  rw [encS, if_pos hneg, decS, if_pos rfl, decU_digits hr hA (neg64 n).isLt, finishSigned_neg64 (neg64_toNat_le hneg),
    neg64_eq_neg, neg64_eq_neg, BitVec.neg_neg]

/-- Two different characters make an alphabet of distinct characters (10_state.md R44). -/
theorem injective_of_two_digits (hne : A 0 ≠ A 1) : ∀ i j, i < 2 → j < 2 → A i = A j → i = j := by
  intro i j hi hj heq
  interval_cases i <;> interval_cases j
  · rfl
  · exact absurd heq hne
  · exact absurd heq.symm hne
  · rfl

/-- Settles O60: 3 is "--" by its digits 1 and 1, and -1 is "--" by the sign and its magnitude's digit 1; the string is
read back as the negative value (`decS_encS_of_negative`). -/
theorem signInTheAlphabetCollides : Obligations.SignInTheAlphabetCollides := by
  intro A h0 h1
  have hA := injective_of_two_digits (A := A) (by rw [h0, h1]; decide)
  have hthree : encS 2 A 3 = [0x2D, 0x2D] := by
    rw [encS, if_neg (by decide), show (3 : Value).toNat = 3 from rfl,
      digits_of_lt_sq le_rfl (by omega) (by omega) (by omega), h1]
  have hneg : isNegative 0xFFFFFFFFFFFFFFFF = true := by decide
  have hminus : encS 2 A 0xFFFFFFFFFFFFFFFF = [0x2D, 0x2D] := by
    rw [encS, if_pos hneg, show (neg64 0xFFFFFFFFFFFFFFFF).toNat = 1 by decide, digits_of_lt (by omega), h1]
    rfl
  exact ⟨hthree, hminus, hminus ▸ decS_encS_of_negative le_rfl hA hneg⟩

end Sys2Proof.Machine
end
